-- ==== Sys2Proof/Word.lean ====
section
/-! DEFINITION. The words of the block: bytes, byte sequences and the fixed-width fields of 00_scope.md R9. -/

namespace Sys2Proof

/-- A byte, 0..255, bit 0 least significant (00_scope.md R12). -/
abbrev Byte := BitVec 8

/-- A finite byte sequence, index 0 first (00_scope.md R13). -/
abbrev Bytes := List Byte

/-- A message identifier, 11 bits (00_scope.md R9). -/
abbrev MsgId := BitVec 11

/-- A message command, 5 bits, opaque to the block (00_scope.md R9, 30_encoding.md R106). -/
abbrev MsgCmd := BitVec 5

/-- A status register's value or an error counter, 32 bits (00_scope.md R9, 30_encoding.md R122). -/
abbrev Word32 := BitVec 32

end Sys2Proof
end

