-- ==== Sys2Proof/Syntax.lean ====
section
/-! DEFINITION. The operations of the block as typed commands: one constructor per row of spec/opcode_table.json
(30_encoding.md R110, R112), with the operands of R113 to R118. -/

namespace Sys2Proof

/-- The eleven operations (30_encoding.md R112). The reserved bits of `ID16` and `CMD8` have no place in a typed
operand; `readStatus` keeps the whole register number, since 44_transmit_control.md R270 takes 0..255. -/
inductive Instr where
  /-- 0x00, 44_transmit_control.md R262. -/
  | reset
  /-- 0x01, 40_checksum.md R141. -/
  | checksum (data : Bytes)
  /-- 0x02, 40_checksum.md R146. -/
  | verify (data : Bytes)
  /-- 0x03, 41_frame_codec.md R163. -/
  | cobsEncode (data : Bytes)
  /-- 0x04, 41_frame_codec.md R171. -/
  | cobsDecode (data : Bytes)
  /-- 0x05, 42_message_layout.md R191. -/
  | pack (id : MsgId) (cmd : MsgCmd) (payload : Bytes)
  /-- 0x06, 42_message_layout.md R197. -/
  | unpack (data : Bytes)
  /-- 0x07, 43_intake_flow.md R215. -/
  | append (chunk : Bytes)
  /-- 0x08, 43_intake_flow.md R220. -/
  | takeFrame
  /-- 0x09, 44_transmit_control.md R251. -/
  | write (id : MsgId) (cmd : MsgCmd) (payload : Bytes)
  /-- 0x0A, 44_transmit_control.md R270. -/
  | readStatus (reg : Byte)
deriving DecidableEq, Repr

end Sys2Proof
end

