-- ==== Sys2Proof/WellFormed.lean ====
section
/-! DEFINITION. Which typed commands a transaction can spell (30_encoding.md R113, R122, R123). -/

namespace Sys2Proof

/-- `DATA` holds at most 65535 bytes, because `LEN16` counts it (30_encoding.md R113). -/
abbrev dataFits (data : Bytes) : Prop := data.length ≤ 65535

/-- `PAYLOAD` holds at most 255 bytes, because `LEN8` counts it (30_encoding.md R113). -/
abbrev payloadFits (payload : Bytes) : Prop := payload.length ≤ 255

/-- The register numbers 0x00 to 0x09 are defined, the rest reserved (30_encoding.md R122). -/
abbrev registerDefined (reg : Byte) : Prop := reg.toNat < 10

/-- A command that some transaction spells. -/
def Instr.wellFormed : Instr → Bool
  | .reset => true
  | .checksum data => decide (dataFits data)
  | .verify data => decide (dataFits data)
  | .cobsEncode data => decide (dataFits data)
  | .cobsDecode data => decide (dataFits data)
  | .pack _ _ payload => decide (payloadFits payload)
  | .unpack data => decide (dataFits data)
  | .append chunk => decide (dataFits chunk)
  | .takeFrame => true
  | .write _ _ payload => decide (payloadFits payload)
  | .readStatus reg => decide (registerDefined reg)

end Sys2Proof
end

