-- ==== Sys2Proof/Decode.lean ====
section
/-! DEFINITION. The byte transport of the command interface: the decoder of transactions, total on any bytes, and the
encoder (30_encoding.md R111 to R118, R123 to R125; order of the checks 60_exceptions.md R292 item 1). -/

namespace Sys2Proof

/-! ### Byte order (20_memory.md R74) -/

/-- A 16-bit value as two bytes, most significant first. -/
def be16 (v : BitVec 16) : Bytes := [v.extractLsb' 8 8, v.extractLsb' 0 8]

/-- The 16-bit value of two bytes, most significant first. -/
def ofBe16 (hi lo : Byte) : BitVec 16 := hi ++ lo

/-- A 32-bit value as four bytes, most significant first. -/
def be32 (v : Word32) : Bytes :=
  [v.extractLsb' 24 8, v.extractLsb' 16 8, v.extractLsb' 8 8, v.extractLsb' 0 8]

/-! ### The decoder -/

/-- Why a transaction spells no operation. -/
inductive Reject where
  /-- The command byte is 0x0B to 0xFF (30_encoding.md R124). -/
  | reservedCommand
  /-- The transaction has no command byte (30_encoding.md R125). -/
  | emptyTransaction
  /-- The transaction's length disagrees with its fields (30_encoding.md R125). -/
  | lengthMismatch
  /-- `ID16` bits 15..11 or `CMD8` bits 7..5 are not all zero (30_encoding.md R123). -/
  | reservedBits
  /-- `REG8` names a reserved register (30_encoding.md R123). -/
  | reservedRegister
deriving DecidableEq, Repr

/-- The operands of an operation that takes none (30_encoding.md R118). -/
def decodeNone (i : Instr) (operands : Bytes) : Except Reject Instr :=
  match operands with
  | [] => .ok i
  | _ :: _ => .error .lengthMismatch

/-- `LEN16 DATA` (30_encoding.md R113, R114, R116). -/
def decodeData (mk : Bytes → Instr) (operands : Bytes) : Except Reject Instr :=
  match operands with
  | hi :: lo :: data =>
    if data.length = (ofBe16 hi lo).toNat then .ok (mk data) else .error .lengthMismatch
  | _ => .error .lengthMismatch

/-- `ID16 CMD8 LEN8 PAYLOAD` (30_encoding.md R113, R115); the length is checked before the reserved bits
(60_exceptions.md R292). -/
def decodeMessage (mk : MsgId → MsgCmd → Bytes → Instr) (operands : Bytes) : Except Reject Instr :=
  match operands with
  | idHi :: idLo :: cmd :: len :: payload =>
    if payload.length ≠ len.toNat then .error .lengthMismatch
    else if (ofBe16 idHi idLo).extractLsb' 11 5 ≠ 0#5 ∨ cmd.extractLsb' 5 3 ≠ 0#3 then
      .error .reservedBits
    else .ok (mk ((ofBe16 idHi idLo).extractLsb' 0 11) (cmd.extractLsb' 0 5) payload)
  | _ => .error .lengthMismatch

/-- `REG8` (30_encoding.md R113, R117, R123). -/
def decodeRegister (operands : Bytes) : Except Reject Instr :=
  match operands with
  | [reg] => if registerDefined reg then .ok (.readStatus reg) else .error .reservedRegister
  | _ => .error .lengthMismatch

/-- The operation a whole transaction spells, or why it spells none (30_encoding.md R111, R112, R124, R125). The
command byte is judged first (60_exceptions.md R292 item 1). -/
def decode (transaction : Bytes) : Except Reject Instr :=
  match transaction with
  | [] => .error .emptyTransaction
  | command :: operands =>
    match command.toNat with
    | 0x00 => decodeNone .reset operands
    | 0x01 => decodeData .checksum operands
    | 0x02 => decodeData .verify operands
    | 0x03 => decodeData .cobsEncode operands
    | 0x04 => decodeData .cobsDecode operands
    | 0x05 => decodeMessage .pack operands
    | 0x06 => decodeData .unpack operands
    | 0x07 => decodeData .append operands
    | 0x08 => decodeNone .takeFrame operands
    | 0x09 => decodeMessage .write operands
    | 0x0A => decodeRegister operands
    | _ => .error .reservedCommand

/-! ### The encoder (30_encoding.md R111 to R118, R126) -/

/-- `LEN16 DATA` after a command byte. -/
def encodeData (command : Byte) (data : Bytes) : Bytes :=
  command :: (be16 (BitVec.ofNat 16 data.length) ++ data)

/-- `ID16 CMD8 LEN8 PAYLOAD` after a command byte. -/
def encodeMessage (command : Byte) (id : MsgId) (cmd : MsgCmd) (payload : Bytes) : Bytes :=
  command :: (be16 (id.setWidth 16) ++ [cmd.setWidth 8, BitVec.ofNat 8 payload.length] ++ payload)

/-- The transaction of a well-formed command. -/
def encode : Instr → Bytes
  | .reset => [0x00#8]
  | .checksum data => encodeData 0x01#8 data
  | .verify data => encodeData 0x02#8 data
  | .cobsEncode data => encodeData 0x03#8 data
  | .cobsDecode data => encodeData 0x04#8 data
  | .pack id cmd payload => encodeMessage 0x05#8 id cmd payload
  | .unpack data => encodeData 0x06#8 data
  | .append chunk => encodeData 0x07#8 chunk
  | .takeFrame => [0x08#8]
  | .write id cmd payload => encodeMessage 0x09#8 id cmd payload
  | .readStatus reg => [0x0A#8, reg]

/-! ### The words of the opcode table -/

/-- How many bytes a transaction has by its command byte and its length fields (30_encoding.md R125), a field that is
not there read as zero. -/
def declaredLength (transaction : Bytes) : Nat :=
  match transaction with
  | [] => 0
  | command :: operands =>
    match command.toNat with
    | 0x01 | 0x02 | 0x03 | 0x04 | 0x06 | 0x07 =>
      3 + (ofBe16 (operands.getD 0 0#8) (operands.getD 1 0#8)).toNat
    | 0x05 | 0x09 => 5 + (operands.getD 3 0#8).toNat
    | 0x0A => 2
    | _ => 1

/-- The low `n` bytes of `w`, the least significant byte first: the order in which opcode_table.json numbers a
transaction's bits. -/
def bytesOfNat (n w : Nat) : Bytes := (List.range n).map fun k => BitVec.ofNat 8 (w / 256 ^ k)

/-- The transaction whose first bytes are the low `nbits` bits of `w` and whose other bytes, as many as its fields ask
for, are zero. -/
def tableTransaction (nbits w : Nat) : Bytes :=
  let given := bytesOfNat (nbits / 8) w
  given ++ List.replicate (declaredLength given - given.length) 0#8

/-- The instruction the decoder reads from a word of the opcode table. -/
def decodeTableWord (nbits w : Nat) : Option Instr := (decode (tableTransaction nbits w)).toOption

end Sys2Proof
end

