-- ==== Sys2Proof/Config.lean ====
section
/-! DEFINITION. What an instance of the block fixes at construction (00_scope.md R6 to R8), and the model's free values. -/

namespace Sys2Proof

/-- The configuration record `cfg` (00_scope.md R6, R7). `maxPayload` is the largest payload WRITE and PACK accept.
No operation writes it (R6). It is plain data; `Cfg.Legal` says which records R7 admits. -/
structure Cfg where
  /-- `C`, the intake FIFO's capacity in bytes. -/
  capacity : Nat
  /-- `HW`, the high watermark. -/
  highWatermark : Nat
  /-- `LW`, the low watermark. -/
  lowWatermark : Nat
  /-- `MAX_PAYLOAD`. -/
  maxPayload : Nat
deriving DecidableEq, Repr

/-- The constraints of 00_scope.md R7; 4294967295 is 2^32 − 1 (90_conflicts.md C10). -/
abbrev Cfg.Legal (c : Cfg) : Prop :=
  1 ≤ c.capacity ∧ c.capacity ≤ 4294967295 ∧ c.lowWatermark < c.highWatermark ∧
    c.highWatermark ≤ c.capacity ∧ c.maxPayload ≤ 255

/-- The defaults of 00_scope.md R7. -/
def Cfg.default : Cfg where
  capacity := 1024
  highWatermark := 768
  lowWatermark := 256
  maxPayload := 255

/-- FREE VALUE (log entry 5): the `LEN16` of a result that carries more than 65535 bytes of data, which
30_encoding.md R113 gives no value. It may depend on the data, so that COBS_ENCODE stays a function of its operand
(20_memory.md R79). DESIGN CHOICE, safe: nothing is known of it. -/
opaque Config.overlongLen16 : Bytes → BitVec 16

/-- FREE VALUE (log entry 7): the `CONSUMED16` of a count above 65535, which 30_encoding.md R119 gives no value.
No transaction spells such an operand (R113). DESIGN CHOICE, safe: nothing is known of it. -/
opaque Config.overlongConsumed16 : Nat → BitVec 16

end Sys2Proof
end

