-- ==== Sys2Proof/Machine/State.lean ====
section
/-! DEFINITION. The state of one instance of the block (10_state.md), its events and results, and its state at
power-on (70_reset_and_hazards.md R310, R311). -/

namespace Sys2Proof.Machine

open Sys2Proof

/-- The Flow State (10_state.md R33). -/
inductive Flow where
  | flowing
  | paused
deriving DecidableEq, Repr

/-- The per-frame errors that are counted (10_state.md R35). -/
inductive ErrorKind where
  | checksumMismatch
  | frameCorrupt
  | truncatedMessage
  | bufferOverflow
deriving DecidableEq, Repr

/-- The result codes 0x00 to 0x08 (30_encoding.md R120); no other is ever returned. -/
inductive ResultCode where
  | ok
  | checksumMismatch
  | frameCorrupt
  | truncatedMessage
  | bufferOverflow
  | payloadTooLong
  | noTerminator
  | illegalCommand
  | illegalOperand
deriving DecidableEq, Repr

/-- A message record (00_scope.md R15). -/
structure Message where
  id : MsgId
  command : MsgCmd
  length : Byte
  payload : Bytes
deriving DecidableEq, Repr

/-- The events of the observation history (10_state.md R38); a level is `true` for 1. -/
inductive Event where
  | flowSet (level : Bool)
  | error (kind : ErrorKind)
  | dispatch (msg : Message)
  | txFrame (bytes : Bytes)
deriving DecidableEq, Repr

/-- The agents that issue operations (10_state.md R39). R39 allows more than one TX caller and gives them no identity: all
of them are the one value `tx`, so the recipient of a `Reply` does not tell TX callers apart (DESIGN CHOICE, log
entry 14). -/
inductive Agent where
  | rx
  | proc
  | tx
  | host
deriving DecidableEq, Repr

/-- One step of the schedule: an agent and the transaction it issues (30_encoding.md R111). -/
structure Issue where
  agent : Agent
  bytes : Bytes
deriving DecidableEq, Repr

/-- The result of one command, returned to whoever issued it (10_state.md R37 item 4, 30_encoding.md R119). -/
structure Reply where
  recipient : Agent
  code : ResultCode
  data : Bytes
deriving DecidableEq, Repr

/-- The four error counters (10_state.md R30, R35). -/
structure Counters where
  checksumMismatch : Word32
  frameCorrupt : Word32
  truncatedMessage : Word32
  bufferOverflow : Word32
deriving DecidableEq, Repr

/-- All four counters at 0. -/
def Counters.zero : Counters where
  checksumMismatch := 0#32
  frameCorrupt := 0#32
  truncatedMessage := 0#32
  bufferOverflow := 0#32

/-- One instance of the block. `fifo`, `flow`, `fcLine` and `cnt` are the record `st` of 10_state.md R30. `cfg` is the
parameter of every rule (00_scope.md R6), carried here because no operation writes it (log entry 1). `hist`, `tx` and
`replies` are observation records (R37, R38; log entry 3). `schedule` and `issuer` are the model's own: the steps still
to come, in their total order (20_memory.md R84; log entry 2), and the agent whose step is being taken (log entry 4). -/
structure State where
  cfg : Cfg
  fifo : Bytes
  flow : Flow
  fcLine : Bool
  cnt : Counters
  hist : List Event
  tx : Bytes
  replies : List Reply
  schedule : List Issue
  issuer : Agent
deriving DecidableEq, Repr

/-- A new instance with configuration `c` (70_reset_and_hazards.md R310, R311; `replies`, `schedule` and `issuer` are
DESIGN CHOICE, log entries 2 to 4). It is an instance of the block only when `c` is legal (00_scope.md R8). -/
def State.powerOn (c : Cfg) : State where
  cfg := c
  fifo := []
  flow := .flowing
  fcLine := true
  cnt := Counters.zero
  hist := []
  tx := []
  replies := []
  schedule := []
  issuer := .host

/-- Right after reset: a new instance with the default configuration of 00_scope.md R7 (log entry 1). -/
def State.reset : State := State.powerOn Cfg.default

/-- Reasons to halt: there are none. "The block never halts, locks up or enters a state from which RESET is the only
way out" (60_exceptions.md R290), and it has no trap (R286). -/
inductive Fault where
deriving DecidableEq, Repr

/-- Reasons for which the model gives a command no meaning. -/
inductive Refusal where
  /-- Raised by an arm of `exec` that has no meaning yet; no arm is left in that state. Safe. -/
  | notModelled (mnemonic : String)
  /-- Raised by every operation, and by `step`, in a state whose configuration breaks 00_scope.md R7: "the block has no
  instance for it, and no operation is defined on it" (R8; log entry 12). Safe: nothing is claimed of such a state. -/
  | illegalConfig
deriving DecidableEq, Repr

end Sys2Proof.Machine
end

