-- ==== Sys2Proof/Machine/Ops.lean ====
section
/-! DEFINITION. The named operations over the state: the pseudocode primitives of 00_scope.md R14 and the accesses to
the FIFO and the transmit stream. The block has no trap (60_exceptions.md R286), so what stands in the place of taking
an exception is `count`, the record of a per-frame error, and `refuse`, the end of a transaction that spells no
operation. -/

namespace Sys2Proof.Machine

open Sys2Proof

/-- The outcome of a step of the block. -/
abbrev Out := Host.Outcome State Fault Refusal

/-- An operation is defined only on an instance, that is, for a legal configuration (00_scope.md R8). -/
def onInstance (s t : State) : Out := if s.cfg.Legal then .next t else .refused .illegalConfig

/-! ### Codes (30_encoding.md R120) -/

/-- The code byte of a result. -/
def ResultCode.byte : ResultCode → Byte
  | .ok => 0x00#8
  | .checksumMismatch => 0x01#8
  | .frameCorrupt => 0x02#8
  | .truncatedMessage => 0x03#8
  | .bufferOverflow => 0x04#8
  | .payloadTooLong => 0x05#8
  | .noTerminator => 0x06#8
  | .illegalCommand => 0x07#8
  | .illegalOperand => 0x08#8

/-- The result code of a per-frame error. -/
def ErrorKind.code : ErrorKind → ResultCode
  | .checksumMismatch => .checksumMismatch
  | .frameCorrupt => .frameCorrupt
  | .truncatedMessage => .truncatedMessage
  | .bufferOverflow => .bufferOverflow

/-- The verdict on a transaction that spells no operation (30_encoding.md R123, R124, R125). -/
def rejectCode : Reject → ResultCode
  | .reservedCommand => .illegalCommand
  | .emptyTransaction => .illegalOperand
  | .lengthMismatch => .illegalOperand
  | .reservedBits => .illegalOperand
  | .reservedRegister => .illegalOperand

/-- A result as bytes: the code, then the data (30_encoding.md R119). -/
def Reply.bytes (r : Reply) : Bytes := r.code.byte :: r.data

/-! ### Results, events and counters (00_scope.md R14) -/

/-- `return code` with its data, to the agent that issued the command (10_state.md R37 item 4). -/
def reply (code : ResultCode) (data : Bytes) (s : State) : State :=
  { s with replies := s.replies ++ [⟨s.issuer, code, data⟩] }

/-- `refuse(code)`: the result is the code and nothing else happens (60_exceptions.md R289). -/
def refuse (code : ResultCode) (s : State) : State := reply code [] s

/-- `emit(e)`. -/
def emit (e : Event) (s : State) : State := { s with hist := s.hist ++ [e] }

/-- The counter of one kind. -/
def Counters.get (c : Counters) : ErrorKind → Word32
  | .checksumMismatch => c.checksumMismatch
  | .frameCorrupt => c.frameCorrupt
  | .truncatedMessage => c.truncatedMessage
  | .bufferOverflow => c.bufferOverflow

/-- One counter incremented, wrapping from 2^32−1 to 0 (10_state.md R35, 60_exceptions.md R291). -/
def Counters.bump (c : Counters) : ErrorKind → Counters
  | .checksumMismatch => { c with checksumMismatch := c.checksumMismatch + 1#32 }
  | .frameCorrupt => { c with frameCorrupt := c.frameCorrupt + 1#32 }
  | .truncatedMessage => { c with truncatedMessage := c.truncatedMessage + 1#32 }
  | .bufferOverflow => { c with bufferOverflow := c.bufferOverflow + 1#32 }

/-- `count(k)`: the counter, then the event (10_state.md R35). -/
def count (k : ErrorKind) (s : State) : State := emit (.error k) { s with cnt := s.cnt.bump k }

/-- All counters cleared, as RESET does (44_transmit_control.md R262). -/
def clearCounters (s : State) : State := { s with cnt := Counters.zero }

/-! ### The FIFO and the transmit stream -/

/-- `occ`, the FIFO's occupancy (10_state.md R31). -/
def occ (s : State) : Nat := s.fifo.length

/-- The FIFO's contents replaced: by a longer one (APPEND), a suffix (TAKE_FRAME) or nothing (20_memory.md R71). -/
def setFifo (bytes : Bytes) (s : State) : State := { s with fifo := bytes }

/-- `first0(b)`: the least index of a 0x00 (00_scope.md R13). -/
def first0 : Bytes → Option Nat
  | [] => none
  | b :: rest => if b = 0x00#8 then some 0 else (first0 rest).map (· + 1)

/-- One whole wire frame put on `tx`, with its event (10_state.md R38, 44_transmit_control.md R251). -/
def transmit (frame : Bytes) (s : State) : State :=
  emit (.txFrame frame) { s with tx := s.tx ++ frame }

end Sys2Proof.Machine
end

