-- ==== Sys2Proof/Machine/Operands.lean ====
section
/-! DEFINITION. The forms of result data (30_encoding.md R113, R119). The operand forms of commands are the decoder's. -/

namespace Sys2Proof.Machine

open Sys2Proof

/-- The value of `LEN16` for some data; beyond 65535 bytes it is a free value (log entry 5). -/
def len16 (data : Bytes) : BitVec 16 :=
  if data.length ≤ 65535 then BitVec.ofNat 16 data.length else Config.overlongLen16 data

/-- `LEN16 DATA`. -/
def lenData (data : Bytes) : Bytes := be16 (len16 data) ++ data

/-- `CONSUMED16`; beyond 65535 it is a free value (log entry 7). -/
def consumed16 (n : Nat) : Bytes :=
  be16 (if n ≤ 65535 then BitVec.ofNat 16 n else Config.overlongConsumed16 n)

/-- `ID16 CMD8 LEN8 PAYLOAD` of an unpacked message (42_message_layout.md R197). -/
def messageData (m : Message) : Bytes :=
  be16 (m.id.setWidth 16) ++ [m.command.setWidth 8, m.length] ++ m.payload

end Sys2Proof.Machine
end

