-- ==== Sys2Proof/Machine/Codec.lean ====
section
/-! DEFINITION. The Frame Codec (41_frame_codec.md): COBS_ENCODE and COBS_DECODE. -/

namespace Sys2Proof.Machine

open Sys2Proof

/-- A group of fewer than 254 data bytes: its code byte `len(run) + 1`, then its data (41_frame_codec.md R160). -/
def shortGroup (run : Bytes) : Bytes := BitVec.ofNat 8 (run.length + 1) :: run

/-- The rest of `cobs_groups` (41_frame_codec.md R162), with its pending `run` and its flag `full` (the last input
byte closed a full group), giving what it still appends to `out`. -/
def cobsGroupsFrom (run : Bytes) (full : Bool) : Bytes → Bytes
  | [] => if full then [] else shortGroup run
  | b :: rest =>
    if b = 0x00#8 then shortGroup run ++ cobsGroupsFrom [] false rest
    else if (run ++ [b]).length = 254 then 0xFF#8 :: (run ++ [b]) ++ cobsGroupsFrom [] true rest
    else cobsGroupsFrom (run ++ [b]) false rest

/-- `cobs_groups(x)`: the groups of `x`, without the terminator (41_frame_codec.md R162). -/
def cobsGroups (x : Bytes) : Bytes := cobsGroupsFrom [] false x

/-- `cobs_groups(x) ++ [0x00]` (41_frame_codec.md R163, 30_encoding.md R100). -/
def cobsFrame (x : Bytes) : Bytes := cobsGroups x ++ [0x00#8]

/-- The loop of `cobs_decode_run` (41_frame_codec.md R170) on the bytes from position `i` on: one group a turn. Every
group takes at least its code byte, so as many turns as there are bytes suffice. `none` is `Corrupt`. -/
def decodeGroups : Nat → Bytes → Option Bytes
  | 0, _ => none
  | _ + 1, [] => none
  | turns + 1, k :: rest =>
    let d := k.toNat - 1
    if rest.length < d then none
    else if rest.drop d = [] then some (rest.take d)
    else (decodeGroups turns (rest.drop d)).map fun out =>
      rest.take d ++ (if k = 0xFF#8 then [] else [0x00#8]) ++ out

/-- `cobs_decode_run(f)`: the original bytes, or `none` for `Corrupt` (41_frame_codec.md R170, R172). Its precondition,
no 0x00 in `f`, holds wherever the block calls it, because runs are cut at the first 0x00 (30_encoding.md R109). -/
def cobsDecodeRun (f : Bytes) : Option Bytes := decodeGroups f.length f

/-- COBS_ENCODE (41_frame_codec.md R163). -/
def execCobsEncode (data : Bytes) (s : State) : Out :=
  onInstance s (reply .ok (lenData (cobsFrame data)) s)

/-- COBS_DECODE (41_frame_codec.md R171). It counts nothing and emits nothing (30_encoding.md R121). -/
def execCobsDecode (data : Bytes) (s : State) : Out :=
  onInstance s <|
    match first0 data with
    | none => reply .noTerminator (consumed16 0) s
    | some t =>
      match cobsDecodeRun (data.take t) with
      | none => reply .frameCorrupt (consumed16 (t + 1)) s
      | some r => reply .ok (consumed16 (t + 1) ++ lenData r) s

end Sys2Proof.Machine
end

