-- ==== Sys2Proof/Machine/Flags.lean ====
section
/-! DEFINITION. The block's one flag, `flow`, and its mirror `fc_line` (10_state.md R33, R34, R45): how they are driven,
evaluated and read. -/

namespace Sys2Proof.Machine

open Sys2Proof

/-- The level of the line for a flow state: 1 exactly when Flowing (10_state.md R34). -/
def Flow.level : Flow → Bool
  | .flowing => true
  | .paused => false

/-- `flow` and `fc_line` set together, with the one `FlowSet` event (10_state.md R34, R38). -/
def driveFlow (f : Flow) (s : State) : State :=
  emit (.flowSet f.level) { s with flow := f, fcLine := f.level }

/-- `flow_eval` (43_intake_flow.md R210, R211). -/
def flowEval (s : State) : State :=
  if s.flow = .flowing ∧ s.cfg.highWatermark ≤ occ s then driveFlow .paused s
  else if s.flow = .paused ∧ occ s ≤ s.cfg.lowWatermark then driveFlow .flowing s
  else s

/-- The FLOW register: bit 0 `PAUSED`, bit 1 `LINE`, the rest 0 (30_encoding.md R122). -/
def flowWord (s : State) : Word32 :=
  ((BitVec.ofBool s.fcLine).setWidth 32 <<< 1) ||| (if s.flow = .paused then 1#32 else 0#32)

end Sys2Proof.Machine
end

