-- ==== Sys2Proof/Machine/Checksum.lean ====
section
/-! DEFINITION. The Checksum Unit (40_checksum.md): CHECKSUM and VERIFY. -/

namespace Sys2Proof.Machine

open Sys2Proof

/-- The XOR fold, seeded with zero (40_checksum.md R140). -/
def checksum (s : Bytes) : Byte := s.foldl (fun c b => c ^^^ b) 0x00#8

/-- Whether the last byte is the fold of every byte before it; false of the empty sequence (40_checksum.md R145). -/
def verify (s : Bytes) : Bool :=
  match s.getLast? with
  | none => false
  | some trailer => decide (checksum s.dropLast = trailer)

/-- CHECKSUM (40_checksum.md R141). -/
def execChecksum (data : Bytes) (s : State) : Out :=
  onInstance s (reply .ok [checksum data] s)

/-- VERIFY (40_checksum.md R146): an invalid trailer is the data byte 0x00, not an error. -/
def execVerify (data : Bytes) (s : State) : Out :=
  onInstance s (reply .ok [if verify data then 0x01#8 else 0x00#8] s)

end Sys2Proof.Machine
end

