-- ==== Sys2Proof/Machine/Layout.lean ====
section
/-! DEFINITION. The Message Layout (42_message_layout.md): PACK and UNPACK. -/

namespace Sys2Proof.Machine

open Sys2Proof

/-- The three header bytes (30_encoding.md R101). -/
def header (id : MsgId) (cmd : MsgCmd) (payload : Bytes) : Bytes :=
  [id.extractLsb' 3 8,
    ((id.extractLsb' 0 3).setWidth 8 <<< 5) ||| cmd.setWidth 8,
    BitVec.ofNat 8 payload.length]

/-- `pack(id, cmd, p)`: the message byte run (42_message_layout.md R190, 30_encoding.md R102); precondition: at most
255 payload bytes. -/
def pack (id : MsgId) (cmd : MsgCmd) (payload : Bytes) : Bytes :=
  let m := header id cmd payload ++ payload
  m ++ [checksum m]

/-- The identifier of a header (30_encoding.md R104). -/
def headerId (byte0 byte1 : Byte) : MsgId :=
  (byte0.setWidth 11 <<< 3) ||| (byte1 >>> 5).setWidth 11

/-- The command of a header (30_encoding.md R103). -/
def headerCmd (byte1 : Byte) : MsgCmd := (byte1 &&& 0x1F#8).setWidth 5

/-- `unpack(s)` (42_message_layout.md R195): the lengths first, then the checksum (R196); excess bytes are accepted
(R198), and the bytes present are `n − 4` (R199). Its two errors are TRUNCATED_MESSAGE and CHECKSUM_MISMATCH. -/
def unpack (s : Bytes) : Except ErrorKind Message :=
  if s.length < 4 then .error .truncatedMessage
  else
    let byte0 := s.getD 0 0#8
    let byte1 := s.getD 1 0#8
    let len := s.getD 2 0#8
    if s.length - 4 < len.toNat then .error .truncatedMessage
    else if verify s then
      .ok { id := headerId byte0 byte1, command := headerCmd byte1, length := len
            payload := (s.drop 3).take len.toNat }
    else .error .checksumMismatch

/-- PACK (42_message_layout.md R191). -/
def execPack (id : MsgId) (cmd : MsgCmd) (payload : Bytes) (s : State) : Out :=
  onInstance s <|
    if s.cfg.maxPayload < payload.length then reply .payloadTooLong [] s
    else reply .ok (lenData (pack id cmd payload)) s

/-- UNPACK (42_message_layout.md R197). It counts nothing and emits nothing (30_encoding.md R121). -/
def execUnpack (data : Bytes) (s : State) : Out :=
  onInstance s <|
    match unpack data with
    | .error k => reply k.code [] s
    | .ok m => reply .ok (messageData m) s

end Sys2Proof.Machine
end

