-- ==== Sys2Proof/Machine/Control.lean ====
section
/-! DEFINITION. The transmit path and control (44_transmit_control.md): WRITE, RESET and READ_STATUS. -/

namespace Sys2Proof.Machine

open Sys2Proof

/-- The wire frame of a message (30_encoding.md R100, 44_transmit_control.md R251). -/
def wireFrame (id : MsgId) (cmd : MsgCmd) (payload : Bytes) : Bytes := cobsFrame (pack id cmd payload)

/-- WRITE (44_transmit_control.md R251); nothing of the receive path gates it (R252), and it never fails for the
Channel's reasons (R254). -/
def execWrite (id : MsgId) (cmd : MsgCmd) (payload : Bytes) (s : State) : Out :=
  onInstance s <|
    if s.cfg.maxPayload < payload.length then reply .payloadTooLong [] s
    else reply .ok [] (transmit (wireFrame id cmd payload) s)

/-- RESET (44_transmit_control.md R262): the line is driven every time (R263); `cfg`, `hist` and `tx` are kept (R264). -/
def execReset (s : State) : Out :=
  onInstance s (reply .ok [] (clearCounters (driveFlow .flowing (setFifo [] s))))

/-- The value of a status register; `none` for a reserved number (30_encoding.md R122, 44_transmit_control.md R270).
In a state no run reaches, an occupancy of 2^32 or more is taken modulo 2^32 (log entry 11). -/
def statusValue (reg : Byte) (s : State) : Option Word32 :=
  match reg.toNat with
  | 0x00 => some (BitVec.ofNat 32 (occ s))
  | 0x01 => some (flowWord s)
  | 0x02 => some s.cnt.checksumMismatch
  | 0x03 => some s.cnt.frameCorrupt
  | 0x04 => some s.cnt.truncatedMessage
  | 0x05 => some s.cnt.bufferOverflow
  | 0x06 => some (BitVec.ofNat 32 s.cfg.capacity)
  | 0x07 => some (BitVec.ofNat 32 s.cfg.highWatermark)
  | 0x08 => some (BitVec.ofNat 32 s.cfg.lowWatermark)
  | 0x09 => some (BitVec.ofNat 32 s.cfg.maxPayload)
  | _ => none

/-- READ_STATUS (44_transmit_control.md R270): the value as four bytes, or ILLEGAL_OPERAND. It writes nothing (R272). -/
def execReadStatus (reg : Byte) (s : State) : Out :=
  onInstance s <|
    match statusValue reg s with
    | some v => reply .ok (be32 v) s
    | none => refuse .illegalOperand s

end Sys2Proof.Machine
end

