-- ==== Sys2Proof/Machine/Intake.lean ====
section
/-! DEFINITION. The Intake Buffer and the Flow Controller (43_intake_flow.md): APPEND and TAKE_FRAME. -/

namespace Sys2Proof.Machine

open Sys2Proof

/-- The effect of APPEND (43_intake_flow.md R215, R216, R222): nothing for an empty chunk; an overflow empties the FIFO,
counts and evaluates the flow; otherwise the chunk joins the tail and the flow is evaluated. -/
def appendChunk (chunk : Bytes) (s : State) : State :=
  if chunk = [] then reply .ok [] s
  else if s.cfg.capacity < occ s + chunk.length then
    reply .bufferOverflow [] (flowEval (count .bufferOverflow (setFifo [] s)))
  else reply .ok [] (flowEval (setFifo (s.fifo ++ chunk) s))

/-- What becomes of a run cut from the FIFO: a message, or the error that drops it (43_intake_flow.md R220, R221;
60_exceptions.md R292 item 4). -/
def receive (run : Bytes) : Except ErrorKind Message :=
  match cobsDecodeRun run with
  | none => .error .frameCorrupt
  | some r => unpack r

/-- The effect of TAKE_FRAME (43_intake_flow.md R220, R222, R226). -/
def takeFrame (s : State) : State :=
  match first0 s.fifo with
  | none => reply .noTerminator [] s
  | some t =>
    let removed := flowEval (setFifo (s.fifo.drop (t + 1)) s)
    match receive (s.fifo.take t) with
    | .error k => reply k.code [] (count k removed)
    | .ok m => reply .ok [] (emit (.dispatch m) removed)

/-- APPEND (43_intake_flow.md R215). It is accepted while Paused too (R219). -/
def execAppend (chunk : Bytes) (s : State) : Out := onInstance s (appendChunk chunk s)

/-- TAKE_FRAME (43_intake_flow.md R220). Whether a PROC step is enabled is the transport's question (10_state.md R41). -/
def execTakeFrame (s : State) : Out := onInstance s (takeFrame s)

end Sys2Proof.Machine
end

