-- ==== Sys2Proof/Machine/Dispatch.lean ====
section
/-! DEFINITION. One arm per operation of 30_encoding.md R112, each a direct call of its meaning. -/

namespace Sys2Proof.Machine

open Sys2Proof

def exec (i : Instr) (s : State) : Host.Outcome State Fault Refusal :=
  match i with
  | .reset => Sys2Proof.Machine.execReset s
  | .checksum data => Sys2Proof.Machine.execChecksum data s
  | .verify data => Sys2Proof.Machine.execVerify data s
  | .cobsEncode data => Sys2Proof.Machine.execCobsEncode data s
  | .cobsDecode data => Sys2Proof.Machine.execCobsDecode data s
  | .pack id cmd payload => Sys2Proof.Machine.execPack id cmd payload s
  | .unpack data => Sys2Proof.Machine.execUnpack data s
  | .append chunk => Sys2Proof.Machine.execAppend chunk s
  | .takeFrame => Sys2Proof.Machine.execTakeFrame s
  | .write id cmd payload => Sys2Proof.Machine.execWrite id cmd payload s
  | .readStatus reg => Sys2Proof.Machine.execReadStatus reg s

end Sys2Proof.Machine
end

