-- ==== Sys2Proof/Machine/Transport.lean ====
section
/-! DEFINITION. How the steps of the schedule reach the operations: enabling (10_state.md R41), the refusals of the byte
transport (30_encoding.md R123 to R125), and the next step. -/

namespace Sys2Proof.Machine

open Sys2Proof

/-- Whether an agent's operation is enabled (10_state.md R41): TAKE_FRAME as a PROC step only when the FIFO holds a
0x00, everything else always. No operation checks who issued it (44_transmit_control.md R275; log entry 8). -/
def enabled (a : Agent) (i : Instr) (s : State) : Bool :=
  match a, i with
  | .proc, .takeFrame => (first0 s.fifo).isSome
  | _, _ => true

/-- One transaction (30_encoding.md R111): refused where it spells no operation (R123 to R125), otherwise executed. A
step that is not enabled is not taken (43_intake_flow.md R226; log entry 6). -/
def runTransaction (t : Issue) (s : State) : Out :=
  match decode t.bytes with
  | .error r => onInstance s (refuse (rejectCode r) { s with issuer := t.agent })
  | .ok i => if enabled t.agent i s then exec i { s with issuer := t.agent } else onInstance s s

/-- The next step of the schedule (20_memory.md R84). With no step to come, no agent steps and nothing changes
(70_reset_and_hazards.md R323; log entry 2). -/
def runNext (s : State) : Out :=
  match s.schedule with
  | [] => onInstance s s
  | t :: rest => runTransaction t { s with schedule := rest }

/-- `s` with one more step before those to come. -/
def issueNext (t : Issue) (s : State) : State := { s with schedule := t :: s.schedule }

end Sys2Proof.Machine
end

