-- ==== Sys2Proof/Machine/Step.lean ====
section
/-! DEFINITION. One step of the machine: the next step of the schedule (10_state.md R40, 20_memory.md R84). -/

namespace Sys2Proof.Machine

open Sys2Proof

/-- One step. -/
def step (s : State) : Host.Outcome State Fault Refusal := runNext s

/-- The opcode table's word as the transaction HOST issues next (log entry 9). -/
def State.withFetchWord (s : State) (nbits w : Nat) : State :=
  issueNext ⟨.host, tableTransaction nbits w⟩ s

end Sys2Proof.Machine
end

