-- ==== Sys2Proof/Machine/Script.lean ====
section
/-! DEFINITION. Command scripts and pseudo-operations (30_encoding.md R126, R127; 70_reset_and_hazards.md R329). They are
the host's: the block sees only the transactions that come out (R127). -/

namespace Sys2Proof.Machine

open Sys2Proof

/-! ### Pseudo-operations (30_encoding.md R127) -/

/-- `FILL n, hh`. R127 gives `n` no bound, and above 65535 no `LEN16` counts the items of `APPEND [hh*n]`, so the spec
leaves open what is sent: the script still sends that APPEND, its `LEN16` keeping the low 16 bits of `n`, and the block
refuses it with ILLEGAL_OPERAND (DESIGN CHOICE, log entry 18). -/
def fillScript (n : Nat) (b : Byte) : List Instr := [.append (List.replicate n b)]

/-- `LOOPBACK id, cmd, bytes`: WRITE, then APPEND of the wire frame it put on `tx`. For a payload longer than `MAX_PAYLOAD`
WRITE appends no frame to `tx`, so the `w` of R127 does not exist and the spec leaves open what is appended: the script
still appends the wire frame of that payload (DESIGN CHOICE, log entry 15). -/
def loopbackScript (id : MsgId) (cmd : MsgCmd) (payload : Bytes) : List Instr :=
  [.write id cmd payload, .append (wireFrame id cmd payload)]

/-- `DRAIN`: TAKE_FRAME repeated until it returns NO_TERMINATOR, that is, once for each 0x00 of the FIFO and once more. -/
def drainScript (s : State) : List Instr := List.replicate (s.fifo.count 0x00#8 + 1) .takeFrame

/-! ### Running a script (70_reset_and_hazards.md R329) -/

/-- `s` with a script's lines as the only steps to come. The spec names no agent for the lines of a script (R126, R329),
and its R39 gives APPEND to RX and WRITE to TX: every line is issued as HOST, APPEND and WRITE too (DESIGN CHOICE, log
entry 17). -/
def withScript (script : List Instr) (s : State) : State :=
  { s with schedule := script.map fun i => ⟨.host, encode i⟩ }

/-- The outcome of that many steps. -/
def runSteps : Nat → State → Out
  | 0, s => .next s
  | n + 1, s =>
    match step s with
    | .next s' => runSteps n s'
    | .fault r => .fault r
    | .refused r => .refused r

/-- A script's lines in order, one step a line, with no other agent's step between them. -/
def runScript (script : List Instr) (s : State) : Out := runSteps script.length (withScript script s)

/-! ### Script text (30_encoding.md R126; white space separates items, log entry 10) -/

/-- The value of a digit below `base`: its place among the digits, in upper or lower case (log entry 10). -/
def digit (base : Nat) (c : Char) : Option Nat :=
  ("0123456789ABCDEF".toList.take base).findIdx? (· = c.toUpper)

/-- A number of one digit or more, the most significant first. -/
def number (base : Nat) (word : List Char) : Option Nat :=
  if word = [] then none
  else (word.mapM (digit base)).map fun values => values.foldl (fun n d => n * base + d) 0

/-- `decimal | "0x" hex`. -/
def scriptNumber : List Char → Option Nat
  | '0' :: 'x' :: rest => number 16 rest
  | word => number 10 word

/-- `item := hh | hh "*" n`. -/
def scriptItem : List Char → Option Bytes
  | [h, l] => (number 16 [h, l]).map fun b => [BitVec.ofNat 8 b]
  | h :: l :: '*' :: n =>
    (number 16 [h, l]).bind fun b => (number 10 n).map fun k => List.replicate k (BitVec.ofNat 8 b)
  | _ => none

/-- The words of a line up to its comment; a bracket or a comma is a word of its own. -/
def scriptWords (word : List Char) : List Char → List (List Char)
  | [] => if word = [] then [] else [word]
  | c :: rest =>
    let before := if word = [] then [] else [word]
    if c = ';' then before
    else if c = ' ' ∨ c = '\t' then before ++ scriptWords [] rest
    else if c = '[' ∨ c = ']' ∨ c = ',' then before ++ [c] :: scriptWords [] rest
    else scriptWords (word ++ [c]) rest

/-- The items after the opening bracket, up to a closing bracket that ends the line. -/
def scriptItems : List (List Char) → Option Bytes
  | [] => none
  | word :: rest =>
    if word = [']'] then (if rest = [] then some [] else none)
    else (scriptItem word).bind fun b => (scriptItems rest).map fun bs => b ++ bs

/-- `bytes := "[" item … "]"`. -/
def scriptBytes : List (List Char) → Option Bytes
  | ['['] :: rest => scriptItems rest
  | _ => none

/-- The operand of an operation that takes `bytes`; `LEN16` must be able to count it. -/
def scriptData (mk : Bytes → Instr) (args : List (List Char)) : Option Instr :=
  (scriptBytes args).bind fun b => if dataFits b then some (mk b) else none

/-- `id "," cmd "," bytes`, with `id` 0..2047 and `cmd` 0..31. -/
def scriptMessage (mk : MsgId → MsgCmd → Bytes → Instr) : List (List Char) → Option Instr
  | id :: [','] :: cmd :: [','] :: rest =>
    (scriptNumber id).bind fun i => (scriptNumber cmd).bind fun c => (scriptBytes rest).bind fun b =>
      if i ≤ 2047 ∧ c ≤ 31 ∧ payloadFits b then
        some (mk (BitVec.ofNat 11 i) (BitVec.ofNat 5 c) b)
      else none
  | _ => none

/-- The names of the status registers, in the order of their numbers (30_encoding.md R122). -/
def registerNames : List String :=
  ["OCCUPANCY", "FLOW", "CNT_CHECKSUM_MISMATCH", "CNT_FRAME_CORRUPT", "CNT_TRUNCATED_MESSAGE", "CNT_BUFFER_OVERFLOW",
    "CFG_CAPACITY", "CFG_HIGH", "CFG_LOW", "CFG_MAX_PAYLOAD"]

/-- `reg := register name | "0x" hex`. -/
def scriptRegister : List (List Char) → Option Instr
  | ['0' :: 'x' :: hex] =>
    (number 16 hex).bind fun n => if n ≤ 255 then some (.readStatus (BitVec.ofNat 8 n)) else none
  | [name] =>
    ((registerNames.map String.toList).findIdx? (· = name)).map fun n => .readStatus (BitVec.ofNat 8 n)
  | _ => none

/-- The operation of a line's words. -/
def scriptOperation (name : List Char) (args : List (List Char)) : Option Instr :=
  if name = "RESET".toList then (if args = [] then some .reset else none)
  else if name = "TAKE_FRAME".toList then (if args = [] then some .takeFrame else none)
  else if name = "CHECKSUM".toList then scriptData .checksum args
  else if name = "VERIFY".toList then scriptData .verify args
  else if name = "COBS_ENCODE".toList then scriptData .cobsEncode args
  else if name = "COBS_DECODE".toList then scriptData .cobsDecode args
  else if name = "UNPACK".toList then scriptData .unpack args
  else if name = "APPEND".toList then scriptData .append args
  else if name = "PACK".toList then scriptMessage .pack args
  else if name = "WRITE".toList then scriptMessage .write args
  else if name = "READ_STATUS".toList then scriptRegister args
  else none

/-- `line := [operation] [";" comment]`: the line's operation, if any; `none` for text that is no line. -/
def scriptLine (line : List Char) : Option (List Instr) :=
  match scriptWords [] line with
  | [] => some []
  | name :: args => (scriptOperation name args).map fun i => [i]

/-- The assembler: each line becomes one transaction, with `LEN16` or `LEN8` set to the item count. -/
def assembleLine (line : List Char) : Option (List Bytes) := (scriptLine line).map (List.map encode)

end Sys2Proof.Machine
end

