-- ==== Sys2Proof/Safety.lean ====
section
/-! DEFINITION. What counts as a safe run of the block: the invariants of 10_state.md, the agents' rights, and the
vocabulary of claims about events and about codes of a run. -/

namespace Sys2Proof.Machine

open Sys2Proof

/-! ### Invariants -/

/-- `0 ≤ occ ≤ C` (10_state.md R32). -/
abbrev State.OccWithinCapacity (s : State) : Prop := occ s ≤ s.cfg.capacity

/-- `fc_line` is 1 exactly when Flowing (10_state.md R34). -/
abbrev State.LineMirrorsFlow (s : State) : Prop := s.fcLine = s.flow.level

/-- Flowing implies `occ < HW`, and Paused implies `occ > LW` (10_state.md R36). -/
abbrev State.FlowWithinBand (s : State) : Prop :=
  (s.flow = .flowing → occ s < s.cfg.highWatermark) ∧ (s.flow = .paused → s.cfg.lowWatermark < occ s)

/-- The bytes of the frames a list of events put on `tx`, in order (10_state.md R38). -/
def sentBytes : List Event → Bytes
  | [] => []
  | .txFrame w :: rest => w ++ sentBytes rest
  | .flowSet _ :: rest => sentBytes rest
  | .error _ :: rest => sentBytes rest
  | .dispatch _ :: rest => sentBytes rest

/-- `tx` is the concatenation of the frames in `hist` (10_state.md R38). -/
abbrev State.TxRecorded (s : State) : Prop := s.tx = sentBytes s.hist

/-- The level a list of events leaves the line at, from a level before them. -/
def lineAfter (level : Bool) : List Event → Bool
  | [] => level
  | .flowSet l :: rest => lineAfter l rest
  | .txFrame _ :: rest => lineAfter level rest
  | .error _ :: rest => lineAfter level rest
  | .dispatch _ :: rest => lineAfter level rest

/-- The line stands at the level of the last `FlowSet` event, or at 1 when there is none (10_state.md R34, R38). -/
abbrev State.LineRecorded (s : State) : Prop := s.fcLine = lineAfter true s.hist

/-- The invariants of a run of the block. -/
abbrev State.Inv (s : State) : Prop :=
  s.cfg.Legal ∧ s.OccWithinCapacity ∧ s.LineMirrorsFlow ∧ s.FlowWithinBand ∧ s.TxRecorded ∧ s.LineRecorded

/-! ### Events -/

/-- The levels of the `FlowSet` events of a list, in order. -/
def flowLevels : List Event → List Bool
  | [] => []
  | .flowSet l :: rest => l :: flowLevels rest
  | .txFrame _ :: rest => flowLevels rest
  | .error _ :: rest => flowLevels rest
  | .dispatch _ :: rest => flowLevels rest

/-- The fates of frames among a list of events: a dispatched message, or the error that dropped the frame
(60_exceptions.md R293). An overflow is no frame's fate. -/
def frameFates : List Event → List (Except ErrorKind Message)
  | [] => []
  | .dispatch m :: rest => .ok m :: frameFates rest
  | .error .checksumMismatch :: rest => .error .checksumMismatch :: frameFates rest
  | .error .frameCorrupt :: rest => .error .frameCorrupt :: frameFates rest
  | .error .truncatedMessage :: rest => .error .truncatedMessage :: frameFates rest
  | .error .bufferOverflow :: rest => frameFates rest
  | .flowSet _ :: rest => frameFates rest
  | .txFrame _ :: rest => frameFates rest

/-- How often a list of events counts an error kind. -/
def errorCount (k : ErrorKind) (events : List Event) : Nat := events.count (.error k)

/-! ### Frames waiting in the FIFO (10_state.md R44) -/

/-- The runs of bytes that end at a 0x00, in order, when `run` has been read before. -/
def completeRunsFrom (run : Bytes) : Bytes → List Bytes
  | [] => []
  | b :: rest =>
    if b = 0x00#8 then run :: completeRunsFrom [] rest else completeRunsFrom (run ++ [b]) rest

/-- The complete frames' runs, the earliest terminator first. -/
def completeRuns (b : Bytes) : List Bytes := completeRunsFrom [] b

/-- The fates the frames that wait in the FIFO will have, in order (60_exceptions.md R293). -/
def waitingFates (s : State) : List (Except ErrorKind Message) := (completeRuns s.fifo).map receive

/-- The bytes after the last 0x00, when `run` has been read before. -/
def partialFrameFrom (run : Bytes) : Bytes → Bytes
  | [] => run
  | b :: rest => if b = 0x00#8 then partialFrameFrom [] rest else partialFrameFrom (run ++ [b]) rest

/-- The partial frame: the bytes after the last 0x00, or all of them when there is none. -/
def partialFrame (b : Bytes) : Bytes := partialFrameFrom [] b

/-! ### Runs of the codec -/

/-- `i` is the position of a code byte of the run `f`: position 0 of a run that is not empty, and the position after a
group that ends inside the run (41_frame_codec.md R170; 30_encoding.md R108). -/
inductive CodeAt (f : Bytes) : Nat → Prop where
  | first (h : f ≠ []) : CodeAt f 0
  | next (i : Nat) (k : Byte) (hi : CodeAt f i) (hk : f[i]? = some k) (hn : i + k.toNat < f.length) :
      CodeAt f (i + k.toNat)

/-! ### The operand forms of transactions -/

/-- The transactions `command LEN16 DATA` spell `mk DATA` (30_encoding.md R113). -/
def DataForm (command : Byte) (mk : Bytes → Instr) : Prop :=
  ∀ (hi lo : Byte) (data : Bytes), data.length = hi.toNat * 256 + lo.toNat →
    decode (command :: hi :: lo :: data) = .ok (mk data)

/-- The transactions `command ID16 CMD8 LEN8 PAYLOAD` with their reserved bits zero spell `mk id cmd PAYLOAD`
(30_encoding.md R113). -/
def MessageForm (command : Byte) (mk : MsgId → MsgCmd → Bytes → Instr) : Prop :=
  ∀ (idHi idLo cmd len : Byte) (payload : Bytes), payload.length = len.toNat → idHi.toNat < 8 → cmd.toNat < 32 →
    decode (command :: idHi :: idLo :: cmd :: len :: payload) =
      .ok (mk (BitVec.ofNat 11 (idHi.toNat * 256 + idLo.toNat)) (BitVec.ofNat 5 cmd.toNat) payload)

/-! ### Agents -/

/-- The operations the rows of 10_state.md R39 name for each agent; everyone may issue the pure operations, and HOST may
issue TAKE_FRAME (10_state.md R41). No operation checks this (44_transmit_control.md R275). -/
def mayIssue : Agent → Instr → Bool
  | _, .checksum _ => true
  | _, .verify _ => true
  | _, .cobsEncode _ => true
  | _, .cobsDecode _ => true
  | _, .pack _ _ _ => true
  | _, .unpack _ => true
  | .rx, .append _ => true
  | .proc, .takeFrame => true
  | .tx, .write _ _ _ => true
  | .host, .reset => true
  | .host, .readStatus _ => true
  | .host, .takeFrame => true
  | _, _ => false

/-- The result codes the table of 30_encoding.md R119 lists for each operation. -/
def resultCodes : Instr → List ResultCode
  | .reset => [.ok]
  | .checksum _ => [.ok]
  | .verify _ => [.ok]
  | .cobsEncode _ => [.ok]
  | .cobsDecode _ => [.ok, .frameCorrupt, .noTerminator]
  | .pack _ _ _ => [.ok, .payloadTooLong]
  | .unpack _ => [.ok, .truncatedMessage, .checksumMismatch]
  | .append _ => [.ok, .bufferOverflow]
  | .takeFrame => [.ok, .frameCorrupt, .truncatedMessage, .checksumMismatch, .noTerminator]
  | .write _ _ _ => [.ok, .payloadTooLong]
  | .readStatus _ => [.ok, .illegalOperand]

/-- How many data bytes that table lists for a code other than OK. -/
def errorDataLength : Instr → Nat
  | .cobsDecode _ => 2
  | _ => 0

/-- A schedule in which every step is one that 10_state.md R39 names for its agent. -/
def State.ScheduleRightful (s : State) : Prop :=
  ∀ t ∈ s.schedule, ∀ i, decode t.bytes = .ok i → mayIssue t.agent i = true

end Sys2Proof.Machine
end

