-- ==== Sys2Proof/Certificates/Slice0/Obligations.lean ====
section
/-! DEFINITION. The statements for the provers. Each docstring names the rule of spec/ it formalises. -/

open Sys2Proof Sys2Proof.Machine

/-! ## Configuration, power-on and reset -/

/-- 70_reset_and_hazards.md R310: an instance with a legal `cfg` starts in the state RESET leaves, with `hist` and `tx`
empty. -/
def Obligations.PowerOnStateIsResetState : Prop :=
  ∀ c : Cfg, c.Legal →
    (State.powerOn c).cfg = c ∧ (State.powerOn c).fifo = [] ∧ (State.powerOn c).flow = .flowing ∧
    (State.powerOn c).fcLine = true ∧ (State.powerOn c).cnt = ⟨0#32, 0#32, 0#32, 0#32⟩ ∧
    (State.powerOn c).hist = [] ∧ (State.powerOn c).tx = [] ∧
    ∃ t, exec .reset (State.powerOn c) = .next t ∧ t.cfg = (State.powerOn c).cfg ∧
      t.fifo = (State.powerOn c).fifo ∧ t.flow = (State.powerOn c).flow ∧
      t.fcLine = (State.powerOn c).fcLine ∧ t.cnt = (State.powerOn c).cnt

/-- 00_scope.md R7: the defaults, and the legal values of each parameter. -/
def Obligations.ConfigurationDefaultsAndLegalValues : Prop :=
  Cfg.default = ⟨1024, 768, 256, 255⟩ ∧ Cfg.default.Legal ∧
  ∀ c hw lw m : Nat, (Cfg.mk c hw lw m).Legal ↔ 1 ≤ c ∧ c < 2 ^ 32 ∧ lw < hw ∧ hw ≤ c ∧ m ≤ 255

/-- 00_scope.md section 3: on a configuration that breaks its constraints no operation is defined; that the model answers
every operation and every step with a refusal there is its reading (log entry 12). -/
def Obligations.IllegalConfigurationRefused : Prop :=
  ∀ s : State,
    ¬ (1 ≤ s.cfg.capacity ∧ s.cfg.capacity < 2 ^ 32 ∧ s.cfg.lowWatermark < s.cfg.highWatermark ∧
        s.cfg.highWatermark ≤ s.cfg.capacity ∧ s.cfg.maxPayload ≤ 255) →
    (∀ i, exec i s = .refused .illegalConfig) ∧ step s = .refused .illegalConfig

/-- 44_transmit_control.md R262, R263, R264: RESET's transaction and its whole effect. -/
def Obligations.ResetRestoresInitialState : Prop :=
  decode [0x00#8] = .ok .reset ∧ ∀ s : State, s.cfg.Legal →
    exec .reset s = .next { s with
      fifo := [], flow := .flowing, fcLine := true, cnt := ⟨0#32, 0#32, 0#32, 0#32⟩
      hist := s.hist ++ [.flowSet true]
      replies := s.replies ++ [⟨s.issuer, .ok, []⟩] }

/-- 44_transmit_control.md section 2, "RESET is idempotent on `st`" (derived there from R262): two RESETs leave the same
`st` as one, and emit two `FlowSet(1)` events. -/
def Obligations.ResetTwiceIsResetOnce : Prop :=
  ∀ s t u : State, exec .reset s = .next t → exec .reset t = .next u →
    u.fifo = t.fifo ∧ u.flow = t.flow ∧ u.fcLine = t.fcLine ∧ u.cnt = t.cnt ∧
    u.hist = s.hist ++ [.flowSet true, .flowSet true]

/-! ## Checksum Unit -/

/-- 40_checksum.md R140, R141: CHECKSUM's transactions; it returns the XOR fold seeded with zero and touches nothing
else. -/
def Obligations.ChecksumReturnsXorFold : Prop :=
  DataForm 0x01#8 .checksum ∧ ∀ (data : Bytes) (s : State), s.cfg.Legal →
    exec (.checksum data) s = .next { s with
      replies := s.replies ++ [⟨s.issuer, .ok, [data.foldl (fun c b => c ^^^ b) 0#8]⟩] }

/-- 40_checksum.md R145, R146: VERIFY's transactions; it compares the last byte with the fold of those before it; the empty input is
invalid; an invalid trailer is the data byte 0x00, not an error. -/
def Obligations.VerifyComparesTrailer : Prop :=
  DataForm 0x02#8 .verify ∧ ∀ s : State, s.cfg.Legal →
    (∀ (init : Bytes) (trailer : Byte),
      exec (.verify (init ++ [trailer])) s = .next { s with
        replies := s.replies ++
          [⟨s.issuer, .ok, [if init.foldl (fun c b => c ^^^ b) 0#8 = trailer then 0x01#8 else 0x00#8]⟩] }) ∧
    exec (.verify []) s = .next { s with replies := s.replies ++ [⟨s.issuer, .ok, [0x00#8]⟩] }

/-- 40_checksum.md section 1, the algebraic laws the spec derives from R140. -/
def Obligations.ChecksumAlgebraicLaws : Prop :=
  (∀ s t : Bytes, checksum (s ++ t) = checksum s ^^^ checksum t) ∧
  (∀ s t : Bytes, s.Perm t → checksum s = checksum t) ∧
  (∀ s : Bytes, checksum (s ++ [checksum s]) = 0x00#8)

/-- 40_checksum.md section 1, the error detection the spec derives from R140: flipping bit `j` of one byte flips bit `j`
of the fold, so every single-bit change is seen; two flips of one bit position in two bytes are not. -/
def Obligations.ChecksumSeesSingleBitFlip : Prop :=
  (∀ (s : Bytes) (i j : Nat) (b : Byte), s[i]? = some b → j < 8 →
    checksum (s.set i (b ^^^ (1#8 <<< j))) = checksum s ^^^ (1#8 <<< j) ∧
    checksum (s.set i (b ^^^ (1#8 <<< j))) ≠ checksum s) ∧
  (∀ (s : Bytes) (i i' j : Nat) (b b' : Byte), i ≠ i' → s[i]? = some b → s[i']? = some b' →
    checksum ((s.set i (b ^^^ (1#8 <<< j))).set i' (b' ^^^ (1#8 <<< j))) = checksum s)

/-- 40_checksum.md section 2, the equivalent form the spec derives for `verify`. -/
def Obligations.VerifyIffFoldIsZero : Prop :=
  (∀ s : Bytes, s ≠ [] → (verify s = true ↔ checksum s = 0x00#8)) ∧
  (∀ (s : Bytes) (i j : Nat) (b : Byte), verify s = true → s[i]? = some b → j < 8 →
    verify (s.set i (b ^^^ (1#8 <<< j))) = false)

/-! ## Frame Codec -/

/-- 41_frame_codec.md R162: the encoder is the rule's own loop, run over the input with `out`, `run` and `full`. -/
def Obligations.EncoderFollowsPseudocode : Prop :=
  ∀ x : Bytes,
    let final := x.foldl
      (fun (st : Bytes × Bytes × Bool) b =>
        if b = 0x00#8 then (st.1 ++ [BitVec.ofNat 8 (st.2.1.length + 1)] ++ st.2.1, [], false)
        else if (st.2.1 ++ [b]).length = 254 then (st.1 ++ [0xFF#8] ++ (st.2.1 ++ [b]), [], true)
        else (st.1, st.2.1 ++ [b], false))
      ([], [], false)
    cobsGroups x =
      if final.2.2 then final.1 else final.1 ++ [BitVec.ofNat 8 (final.2.1.length + 1)] ++ final.2.1

/-- 41_frame_codec.md R163: COBS_ENCODE's transactions; it returns `LEN16` and the groups with their terminator; `LEN16` is their count
wherever 16 bits can hold it (beyond that it is the model's free value, log entry 5), and nothing else changes. -/
def Obligations.CobsEncodeReturnsFrame : Prop :=
  DataForm 0x03#8 .cobsEncode ∧ ∀ (x : Bytes) (s : State), s.cfg.Legal →
    ∃ hi lo : Byte,
      exec (.cobsEncode x) s = .next { s with
        replies := s.replies ++ [⟨s.issuer, .ok, [hi, lo] ++ (cobsGroups x ++ [0x00#8])⟩] } ∧
      ((cobsGroups x ++ [0x00#8]).length ≤ 65535 →
        hi.toNat * 256 + lo.toNat = (cobsGroups x ++ [0x00#8]).length)

/-- 41_frame_codec.md section 2, the output properties the spec derives: no 0x00 inside, never empty, and the bounds on
the length, the upper one reached without zeros. -/
def Obligations.EncoderOutputShape : Prop :=
  ∀ x : Bytes,
    0x00#8 ∉ cobsGroups x ∧ cobsGroups x ≠ [] ∧ x.length + 1 ≤ (cobsGroups x).length ∧
    (cobsGroups x).length ≤ x.length + max 1 ((x.length + 253) / 254) ∧
    (0x00#8 ∉ x → (cobsGroups x).length = x.length + max 1 ((x.length + 253) / 254))

/-- 41_frame_codec.md R170: the run decoder takes one group a turn, appends its data, stops when the run ends and
otherwise appends the implied 0x00 unless the code is 0xFF. -/
def Obligations.RunDecoderFollowsPseudocode : Prop :=
  cobsDecodeRun [] = none ∧
  ∀ (k : Byte) (rest : Bytes), 0x00#8 ∉ k :: rest →
    cobsDecodeRun (k :: rest) =
      if (k :: rest).length < k.toNat then none
      else if k.toNat = (k :: rest).length then some rest
      else (cobsDecodeRun ((k :: rest).drop k.toNat)).map fun out =>
        rest.take (k.toNat - 1) ++ ((if k.toNat < 0xFF then [0x00#8] else []) ++ out)

/-- 41_frame_codec.md R172: a run is corrupt exactly when it is empty or some code byte's group reaches past its end. -/
def Obligations.CorruptExactlyWhenGroupOverrunsOrEmpty : Prop :=
  ∀ f : Bytes, 0x00#8 ∉ f →
    (cobsDecodeRun f = none ↔
      f = [] ∨ ∃ i k, CodeAt f i ∧ f[i]? = some k ∧ f.length < i + k.toNat)

/-- 41_frame_codec.md R171: COBS_DECODE's transactions; its result on input without a 0x00, on a corrupt run and on a valid one; bytes after the
first 0x00 are neither read nor consumed; nothing else changes. -/
def Obligations.CobsDecodeReturnsRun : Prop :=
  DataForm 0x04#8 .cobsDecode ∧ ∀ (s : State), s.cfg.Legal →
    (∀ data : Bytes, 0x00#8 ∉ data →
      exec (.cobsDecode data) s = .next { s with
        replies := s.replies ++ [⟨s.issuer, .noTerminator, [0x00#8, 0x00#8]⟩] }) ∧
    (∀ run rest : Bytes, 0x00#8 ∉ run → (run ++ 0x00#8 :: rest).length ≤ 65535 → cobsDecodeRun run = none →
      exec (.cobsDecode (run ++ 0x00#8 :: rest)) s = .next { s with
        replies := s.replies ++ [⟨s.issuer, .frameCorrupt,
          [BitVec.ofNat 8 ((run.length + 1) / 256), BitVec.ofNat 8 (run.length + 1)]⟩] }) ∧
    (∀ run rest r : Bytes, 0x00#8 ∉ run → (run ++ 0x00#8 :: rest).length ≤ 65535 → cobsDecodeRun run = some r →
      exec (.cobsDecode (run ++ 0x00#8 :: rest)) s = .next { s with
        replies := s.replies ++ [⟨s.issuer, .ok,
          [BitVec.ofNat 8 ((run.length + 1) / 256), BitVec.ofNat 8 (run.length + 1),
            BitVec.ofNat 8 (r.length / 256), BitVec.ofNat 8 r.length] ++ r⟩] })

/-- 41_frame_codec.md section 3, the round trip the spec derives: decoding the groups of `x` gives `x`, and so does
COBS_DECODE of what COBS_ENCODE returns, consuming all of it. -/
def Obligations.DecodeOfEncodeIsIdentity : Prop :=
  ∀ x : Bytes, cobsDecodeRun (cobsGroups x) = some x ∧
    ∀ s : State, s.cfg.Legal → (cobsGroups x).length + 1 ≤ 65535 →
      exec (.cobsDecode (cobsGroups x ++ [0x00#8])) s = .next { s with
        replies := s.replies ++ [⟨s.issuer, .ok,
          [BitVec.ofNat 8 (((cobsGroups x).length + 1) / 256), BitVec.ofNat 8 ((cobsGroups x).length + 1),
            BitVec.ofNat 8 (x.length / 256), BitVec.ofNat 8 x.length] ++ x⟩] }

/-- 41_frame_codec.md section 3, what the spec derives about runs the encoder never produces: a run decodes to `x`
exactly when it is the groups of `x`, or those followed by one empty group where the final run of `x` is not empty and
its length is a multiple of 254. -/
def Obligations.ValidRunIsEncodingUpToTrailingGroup : Prop :=
  ∀ f x : Bytes, 0x00#8 ∉ f →
    (cobsDecodeRun f = some x ↔
      f = cobsGroups x ∨
      (f = cobsGroups x ++ [0x01#8] ∧ (partialFrame x).length ≠ 0 ∧ 254 ∣ (partialFrame x).length))

/-! ## Message Layout -/

/-- 30_encoding.md R101, R102: the header's three bytes by their fields, the payload, and the fold of all before it. -/
def Obligations.PackedMessageLayout : Prop :=
  ∀ (id : MsgId) (cmd : MsgCmd) (p : Bytes), p.length ≤ 255 →
    ∃ b0 b1 b2 : Byte,
      pack id cmd p = [b0, b1, b2] ++ p ++ [([b0, b1, b2] ++ p).foldl (fun c b => c ^^^ b) 0x00#8] ∧
      b0.toNat = id.toNat / 8 ∧ b1.toNat = id.toNat % 8 * 32 + cmd.toNat ∧ b2.toNat = p.length

/-- 42_message_layout.md R191: PACK's transactions; it returns the message byte run with its length, or PAYLOAD_TOO_LONG; nothing else
changes. -/
def Obligations.PackReturnsMessageRun : Prop :=
  MessageForm 0x05#8 .pack ∧ ∀ (id : MsgId) (cmd : MsgCmd) (p : Bytes) (s : State), s.cfg.Legal →
    exec (.pack id cmd p) s = .next { s with
      replies := s.replies ++ [
        if s.cfg.maxPayload < p.length then ⟨s.issuer, .payloadTooLong, []⟩
        else ⟨s.issuer, .ok, [BitVec.ofNat 8 ((p.length + 4) / 256), BitVec.ofNat 8 (p.length + 4)] ++ pack id cmd p⟩] }

/-- 42_message_layout.md section 1, the properties of `pack` the spec derives. -/
def Obligations.UnpackOfPackIsMessage : Prop :=
  ∀ (id : MsgId) (cmd : MsgCmd) (p : Bytes), p.length ≤ 255 →
    (pack id cmd p).length = p.length + 4 ∧ verify (pack id cmd p) = true ∧
    unpack (pack id cmd p) = .ok ⟨id, cmd, BitVec.ofNat 8 p.length, p⟩ ∧
    (pack id cmd p)[1]?.map (fun b => (b &&& 0x1F#8).toNat) = some cmd.toNat

/-- 30_encoding.md R103, R104: the command is the low five bits of byte 1, the identifier byte 0 and the high three bits
of byte 1, in every run that unpacks. -/
def Obligations.UnpackedFieldsOfHeader : Prop :=
  ∀ (b0 b1 b2 : Byte) (rest : Bytes) (m : Message), unpack (b0 :: b1 :: b2 :: rest) = .ok m →
    m.command.setWidth 8 = b1 &&& 0x1F#8 ∧ m.id.toNat = b0.toNat * 8 + b1.toNat / 32 ∧ m.length = b2

/-- 42_message_layout.md R195, R196, R197, R198, R199: UNPACK's transactions and its three results, the length check before the checksum
check, excess bytes accepted; nothing else changes. -/
def Obligations.UnpackChecksThenSplits : Prop :=
  DataForm 0x06#8 .unpack ∧ ∀ s : State, s.cfg.Legal →
    (∀ data : Bytes, data.length < 4 →
      exec (.unpack data) s = .next { s with replies := s.replies ++ [⟨s.issuer, .truncatedMessage, []⟩] }) ∧
    (∀ (b0 b1 len : Byte) (body : Bytes) (trailer : Byte),
      exec (.unpack (b0 :: b1 :: len :: (body ++ [trailer]))) s = .next { s with
        replies := s.replies ++ [
          if body.length < len.toNat then ⟨s.issuer, .truncatedMessage, []⟩
          else if (b0 :: b1 :: len :: body).foldl (fun c b => c ^^^ b) 0x00#8 ≠ trailer then
            ⟨s.issuer, .checksumMismatch, []⟩
          else ⟨s.issuer, .ok,
            [BitVec.ofNat 8 ((b0.toNat * 8 + b1.toNat / 32) / 256), BitVec.ofNat 8 (b0.toNat * 8 + b1.toNat / 32),
              b1 &&& 0x1F#8, len] ++ body.take len.toNat⟩] })

/-- 42_message_layout.md section 2, the single-bit sensitivity the spec derives: a packed message with one bit flipped
never unpacks, and is truncated only when the flipped bit makes its length byte exceed the payload. -/
def Obligations.FlippedMessageNeverUnpacks : Prop :=
  ∀ (id : MsgId) (cmd : MsgCmd) (p : Bytes) (i j : Nat) (b : Byte), p.length ≤ 255 →
    (pack id cmd p)[i]? = some b → j < 8 →
    verify ((pack id cmd p).set i (b ^^^ (1#8 <<< j))) = false ∧
    unpack ((pack id cmd p).set i (b ^^^ (1#8 <<< j))) =
      .error (if i = 2 ∧ p.length < (b ^^^ (1#8 <<< j)).toNat then .truncatedMessage else .checksumMismatch)

/-! ## Intake Buffer and Flow Controller -/

/-- 43_intake_flow.md R210, R211: the flow evaluation pauses, resumes or does nothing, with one event a transition. -/
def Obligations.FlowEvaluationTransitions : Prop :=
  ∀ s : State,
    (s.flow = .flowing → s.cfg.highWatermark ≤ s.fifo.length →
      flowEval s = { s with flow := .paused, fcLine := false, hist := s.hist ++ [.flowSet false] }) ∧
    (s.flow = .paused → s.fifo.length ≤ s.cfg.lowWatermark →
      flowEval s = { s with flow := .flowing, fcLine := true, hist := s.hist ++ [.flowSet true] }) ∧
    (s.flow = .flowing → s.fifo.length < s.cfg.highWatermark → flowEval s = s) ∧
    (s.flow = .paused → s.cfg.lowWatermark < s.fifo.length → flowEval s = s)

/-- 43_intake_flow.md R215, R216, R217, R219 and 30_encoding.md R114: APPEND's transactions; APPEND of an empty chunk, of one that overflows and of one that fits,
whatever the flow state; the flow is evaluated after the change, and an overflow's error comes before it. -/
def Obligations.AppendAcceptsOrOverflows : Prop :=
  DataForm 0x07#8 .append ∧ ∀ (chunk : Bytes) (s : State), s.cfg.Legal →
    (chunk = [] → exec (.append chunk) s = .next { s with replies := s.replies ++ [⟨s.issuer, .ok, []⟩] }) ∧
    (chunk ≠ [] → s.fifo.length + chunk.length ≤ s.cfg.capacity →
      exec (.append chunk) s = .next { flowEval { s with fifo := s.fifo ++ chunk } with
        replies := s.replies ++ [⟨s.issuer, .ok, []⟩] }) ∧
    (chunk ≠ [] → s.cfg.capacity < s.fifo.length + chunk.length →
      exec (.append chunk) s = .next {
        flowEval { s with
          fifo := []
          cnt := { s.cnt with bufferOverflow := s.cnt.bufferOverflow + 1#32 }
          hist := s.hist ++ [.error .bufferOverflow] } with
        replies := s.replies ++ [⟨s.issuer, .bufferOverflow, []⟩] })

/-- 43_intake_flow.md section 2, "so a Paused block returns to Flowing in the same step" (derived there from R210):
after an overflow the FIFO is empty and the block Flowing, with one `FlowSet(1)` after the error if it was Paused. -/
def Obligations.OverflowResumesFlow : Prop :=
  ∀ (chunk : Bytes) (s t : State), chunk ≠ [] → s.cfg.capacity < s.fifo.length + chunk.length →
    exec (.append chunk) s = .next t →
    t.fifo = [] ∧ t.flow = .flowing ∧
    t.hist = s.hist ++ [.error .bufferOverflow] ++ (if s.flow = .paused then [.flowSet true] else [])

/-- 43_intake_flow.md R220, R226: TAKE_FRAME's transaction; without a terminator it returns NO_TERMINATOR and changes
nothing, and is no step of PROC; with one it removes the run before the first 0x00 with that 0x00, evaluates the flow, and
then counts the frame's error or dispatches its message; what follows the 0x00 stays. -/
def Obligations.TakeFrameProcessesOneFrame : Prop :=
  decode [0x08#8] = .ok .takeFrame ∧
  (∀ s : State, s.cfg.Legal → 0x00#8 ∉ s.fifo →
    enabled .proc .takeFrame s = false ∧
    exec .takeFrame s = .next { s with replies := s.replies ++ [⟨s.issuer, .noTerminator, []⟩] }) ∧
  (∀ (run rest : Bytes) (s : State), s.cfg.Legal → 0x00#8 ∉ run → s.fifo = run ++ 0x00#8 :: rest →
    enabled .proc .takeFrame s = true ∧
    let removed := flowEval { s with fifo := rest }
    exec .takeFrame s = .next (
      match cobsDecodeRun run with
      | none => { removed with
          cnt := { s.cnt with frameCorrupt := s.cnt.frameCorrupt + 1#32 }
          hist := removed.hist ++ [.error .frameCorrupt]
          replies := s.replies ++ [⟨s.issuer, .frameCorrupt, []⟩] }
      | some r =>
        match unpack r with
        | .ok m => { removed with
            hist := removed.hist ++ [.dispatch m]
            replies := s.replies ++ [⟨s.issuer, .ok, []⟩] }
        | .error k =>
          if k = .truncatedMessage then { removed with
            cnt := { s.cnt with truncatedMessage := s.cnt.truncatedMessage + 1#32 }
            hist := removed.hist ++ [.error .truncatedMessage]
            replies := s.replies ++ [⟨s.issuer, .truncatedMessage, []⟩] }
          else { removed with
            cnt := { s.cnt with checksumMismatch := s.cnt.checksumMismatch + 1#32 }
            hist := removed.hist ++ [.error .checksumMismatch]
            replies := s.replies ++ [⟨s.issuer, .checksumMismatch, []⟩] }))

/-- 43_intake_flow.md R222: an overflow's error comes before the change of the line, and a frame's fate, a dispatch or one
of the three per-frame errors of TAKE_FRAME, after the change that its removal brings. -/
def Obligations.EventOrderInsideStep : Prop :=
  (∀ (chunk : Bytes) (s t : State), chunk ≠ [] → s.cfg.capacity < s.fifo.length + chunk.length →
    exec (.append chunk) s = .next t →
    ∃ sets : List Bool, t.hist = s.hist ++ [.error .bufferOverflow] ++ sets.map .flowSet) ∧
  (∀ s t : State, 0x00#8 ∈ s.fifo → exec .takeFrame s = .next t →
    ∃ (sets : List Bool) (fate : Event), t.hist = s.hist ++ sets.map .flowSet ++ [fate] ∧
      ((∃ m, fate = .dispatch m) ∨ fate = .error .frameCorrupt ∨ fate = .error .truncatedMessage ∨
        fate = .error .checksumMismatch))

/-- 60_exceptions.md section 3, "One outcome per frame" (derived there from R220): a frame TAKE_FRAME removes has
exactly one fate, that of its run; no other operation gives a frame a fate. -/
def Obligations.OneFatePerFrame : Prop :=
  ∀ (i : Instr) (s t : State), exec i s = .next t →
    ∃ ev, t.hist = s.hist ++ ev ∧
      (i ≠ .takeFrame → frameFates ev = []) ∧
      (i = .takeFrame → 0x00#8 ∉ s.fifo → frameFates ev = []) ∧
      (i = .takeFrame → ∀ run rest, 0x00#8 ∉ run → s.fifo = run ++ 0x00#8 :: rest → frameFates ev = [receive run])

/-- 20_memory.md R71: the only ways the FIFO changes. -/
def Obligations.FifoChangesOnlyAsListed : Prop :=
  ∀ (i : Instr) (s t : State), exec i s = .next t →
    t.fifo = s.fifo ∨
    (∃ chunk, i = .append chunk ∧ (t.fifo = s.fifo ++ chunk ∨
      (s.cfg.capacity < s.fifo.length + chunk.length ∧ t.fifo = []))) ∨
    (i = .takeFrame ∧ ∃ run, 0x00#8 ∉ run ∧ s.fifo = run ++ 0x00#8 :: t.fifo) ∨
    (i = .reset ∧ t.fifo = [])

/-- 43_intake_flow.md section 1, the hysteresis the spec derives: reaching `HW` while Flowing emits one `FlowSet(0)`,
reaching `LW` while Paused one `FlowSet(1)`, and a step that ends between the watermarks none. -/
def Obligations.WatermarkHysteresis : Prop :=
  ∀ s t : State, s.FlowWithinBand → step s = .next t →
    ∃ ev, t.hist = s.hist ++ ev ∧
      (s.flow = .flowing → s.cfg.highWatermark ≤ t.fifo.length → flowLevels ev = [false] ∧ t.flow = .paused) ∧
      (s.flow = .paused → t.fifo.length ≤ s.cfg.lowWatermark → flowLevels ev = [true] ∧ t.flow = .flowing) ∧
      (s.cfg.lowWatermark < t.fifo.length → t.fifo.length < s.cfg.highWatermark →
        flowLevels ev = [] ∧ t.flow = s.flow)

/-- 10_state.md R33, R34: only the flow evaluation and RESET write `flow` and `fc_line`; the line changes only with the
flow, and each change is one `FlowSet` event of the new level. -/
def Obligations.LineChangesOnlyWithFlow : Prop :=
  ∀ (i : Instr) (s t : State), s.LineMirrorsFlow → exec i s = .next t →
    t.LineMirrorsFlow ∧ ∃ ev, t.hist = s.hist ++ ev ∧
      (i = .reset → flowLevels ev = [true] ∧ t.flow = .flowing) ∧
      (i ≠ .reset → (t.flow = s.flow ∧ flowLevels ev = []) ∨ (t.flow ≠ s.flow ∧ flowLevels ev = [t.fcLine])) ∧
      ((∀ chunk, i ≠ .append chunk) → i ≠ .takeFrame → i ≠ .reset → t.flow = s.flow)

/-! ## Transmit path and status -/

/-- 44_transmit_control.md R251, R252: WRITE's transactions; whatever the receive path holds, WRITE puts the wire frame of the packed message on `tx`, with its event, or returns
PAYLOAD_TOO_LONG and does nothing. -/
def Obligations.WriteTransmitsFrame : Prop :=
  MessageForm 0x09#8 .write ∧ ∀ (id : MsgId) (cmd : MsgCmd) (p : Bytes) (s : State), s.cfg.Legal →
    (p.length ≤ s.cfg.maxPayload →
      exec (.write id cmd p) s = .next { s with
        tx := s.tx ++ (cobsGroups (pack id cmd p) ++ [0x00#8])
        hist := s.hist ++ [.txFrame (cobsGroups (pack id cmd p) ++ [0x00#8])]
        replies := s.replies ++ [⟨s.issuer, .ok, []⟩] }) ∧
    (s.cfg.maxPayload < p.length →
      exec (.write id cmd p) s = .next { s with replies := s.replies ++ [⟨s.issuer, .payloadTooLong, []⟩] })

/-- 00_scope.md section 3, the size bounds the spec derives for a wire frame, and the exact size below 250 bytes of
payload (44_transmit_control.md section 1). -/
def Obligations.WireFrameLength : Prop :=
  ∀ (id : MsgId) (cmd : MsgCmd) (p : Bytes), p.length ≤ 255 →
    p.length + 6 ≤ (wireFrame id cmd p).length ∧ (wireFrame id cmd p).length ≤ p.length + 5 + (p.length + 257) / 254 ∧
    (wireFrame id cmd p).length ≤ 262 ∧ (p.length ≤ 249 → (wireFrame id cmd p).length = p.length + 6)

/-- 44_transmit_control.md R270, 30_encoding.md R117: READ_STATUS's transactions; the value of each status register, big-endian, where the FIFO is within its capacity
(10_state.md R32), and ILLEGAL_OPERAND for a reserved register; nothing else changes. -/
def Obligations.ReadStatusReturnsRegister : Prop :=
  (∀ reg : Byte, reg.toNat < 10 → decode [0x0A#8, reg] = .ok (.readStatus reg)) ∧
  ∀ (reg : Byte) (s : State), s.cfg.Legal → s.OccWithinCapacity →
    (∀ v : Nat,
      [s.fifo.length, (if s.fcLine then 2 else 0) + (if s.flow = .paused then 1 else 0),
        s.cnt.checksumMismatch.toNat, s.cnt.frameCorrupt.toNat, s.cnt.truncatedMessage.toNat,
        s.cnt.bufferOverflow.toNat, s.cfg.capacity, s.cfg.highWatermark, s.cfg.lowWatermark,
        s.cfg.maxPayload][reg.toNat]? = some v →
      v < 2 ^ 32 ∧
      exec (.readStatus reg) s = .next { s with
        replies := s.replies ++ [⟨s.issuer, .ok,
          [BitVec.ofNat 8 (v / 2 ^ 24), BitVec.ofNat 8 (v / 2 ^ 16), BitVec.ofNat 8 (v / 2 ^ 8), BitVec.ofNat 8 v]⟩] }) ∧
    (10 ≤ reg.toNat →
      exec (.readStatus reg) s = .next { s with replies := s.replies ++ [⟨s.issuer, .illegalOperand, []⟩] })

/-- 20_memory.md R83: WRITE neither reads nor writes `fifo`, `flow`, `fc_line` or `cnt`, and APPEND and TAKE_FRAME
neither read nor write `tx`. -/
def Obligations.TransmitAndReceiveIndependent : Prop :=
  (∀ (id : MsgId) (cmd : MsgCmd) (p : Bytes) (s t : State) (f : Bytes) (g : Flow) (l : Bool) (c : Counters),
    exec (.write id cmd p) s = .next t →
    t.fifo = s.fifo ∧ t.flow = s.flow ∧ t.fcLine = s.fcLine ∧ t.cnt = s.cnt ∧
    exec (.write id cmd p) { s with fifo := f, flow := g, fcLine := l, cnt := c } =
      .next { t with fifo := f, flow := g, fcLine := l, cnt := c }) ∧
  (∀ (i : Instr) (s t : State) (x : Bytes), (i = .takeFrame ∨ ∃ chunk, i = .append chunk) → exec i s = .next t →
    t.tx = s.tx ∧ exec i { s with tx := x } = .next { t with tx := x })

/-! ## Encoding -/

/-- The transactions of the command interface (30_encoding.md Part B): the encoder's transaction of every command a
transaction can spell decodes to that command. -/
def Obligations.DecodeOfEncode : Prop :=
  ∀ i : Instr, i.wellFormed = true → decode (encode i) = .ok i

/-- The transactions of the command interface (30_encoding.md Part B): a transaction that decodes is the encoder's
transaction of what it decodes to, which is a command a transaction can spell. -/
def Obligations.EncodeOfDecode : Prop :=
  ∀ (bytes : Bytes) (i : Instr), decode bytes = .ok i → i.wellFormed = true ∧ encode i = bytes

/-- Words written out from the encodings of 30_encoding.md R112 to R118, one or more for every operation. -/
def Obligations.SpecWordsDecode : Prop :=
  decode [0x00#8] = .ok .reset ∧
  decode [0x01#8, 0x00#8, 0x03#8, 0x01#8, 0x02#8, 0x03#8] = .ok (.checksum [0x01#8, 0x02#8, 0x03#8]) ∧
  decode [0x02#8, 0x00#8, 0x01#8, 0x05#8] = .ok (.verify [0x05#8]) ∧
  decode [0x03#8, 0x00#8, 0x02#8, 0x11#8, 0x00#8] = .ok (.cobsEncode [0x11#8, 0x00#8]) ∧
  decode [0x04#8, 0x00#8, 0x02#8, 0x01#8, 0x00#8] = .ok (.cobsDecode [0x01#8, 0x00#8]) ∧
  decode [0x05#8, 0x07#8, 0xFF#8, 0x1F#8, 0x00#8] = .ok (.pack 2047#11 31#5 []) ∧
  decode [0x06#8, 0x00#8, 0x03#8, 0x00#8, 0x00#8, 0x00#8] = .ok (.unpack [0x00#8, 0x00#8, 0x00#8]) ∧
  decode [0x07#8, 0x00#8, 0x02#8, 0x01#8, 0x07#8] = .ok (.append [0x01#8, 0x07#8]) ∧
  decode [0x08#8] = .ok .takeFrame ∧
  decode [0x09#8, 0x00#8, 0x01#8, 0x14#8, 0x03#8, 0x01#8, 0x02#8, 0x03#8] =
    .ok (.write 1#11 20#5 [0x01#8, 0x02#8, 0x03#8]) ∧
  decode [0x0A#8, 0x06#8] = .ok (.readStatus 0x06#8)

/-- 30_encoding.md R124: a command byte of 0x0B to 0xFF is refused with ILLEGAL_COMMAND, whatever follows it. -/
def Obligations.ReservedCommandRefused : Prop :=
  ∀ (s : State) (a : Agent) (c : Byte) (operands : Bytes) (rest : List Issue), s.cfg.Legal →
    0x0B ≤ c.toNat → s.schedule = ⟨a, c :: operands⟩ :: rest →
    step s = .next { s with
      schedule := rest, issuer := a, replies := s.replies ++ [⟨a, .illegalCommand, []⟩] }

/-- 30_encoding.md R125: a transaction that is empty, or whose length disagrees with its command byte and length fields,
is refused with ILLEGAL_OPERAND. -/
def Obligations.MalformedTransactionRefused : Prop :=
  ∀ (s : State) (a : Agent) (bytes : Bytes) (rest : List Issue), s.cfg.Legal →
    s.schedule = ⟨a, bytes⟩ :: rest →
    (bytes = [] ∨
      (∃ c x, bytes = c :: x ∧ (c.toNat = 0 ∨ c.toNat = 8) ∧ x ≠ []) ∨
      (∃ c x, bytes = c :: x ∧ c.toNat ∈ [1, 2, 3, 4, 6, 7] ∧
        ∀ hi lo data, x = hi :: lo :: data → data.length ≠ hi.toNat * 256 + lo.toNat) ∨
      (∃ c x, bytes = c :: x ∧ (c.toNat = 5 ∨ c.toNat = 9) ∧
        ∀ i1 i2 cm len p, x = i1 :: i2 :: cm :: len :: p → p.length ≠ len.toNat) ∨
      (∃ c x, bytes = c :: x ∧ c.toNat = 10 ∧ x.length ≠ 1)) →
    step s = .next { s with
      schedule := rest, issuer := a, replies := s.replies ++ [⟨a, .illegalOperand, []⟩] }

/-- 30_encoding.md R123: a transaction of the right length with reserved bits set or a reserved register is refused with
ILLEGAL_OPERAND. -/
def Obligations.ReservedOperandRefused : Prop :=
  ∀ (s : State) (a : Agent) (bytes : Bytes) (rest : List Issue), s.cfg.Legal →
    s.schedule = ⟨a, bytes⟩ :: rest →
    ((∃ c i1 i2 cm len p, bytes = c :: i1 :: i2 :: cm :: len :: p ∧ (c.toNat = 5 ∨ c.toNat = 9) ∧
        p.length = len.toNat ∧ (0x08 ≤ i1.toNat ∨ 0x20 ≤ cm.toNat)) ∨
      (∃ c reg, bytes = [c, reg] ∧ c.toNat = 10 ∧ 0x0A ≤ reg.toNat)) →
    step s = .next { s with
      schedule := rest, issuer := a, replies := s.replies ++ [⟨a, .illegalOperand, []⟩] }

/-! ## Whole-machine rules -/

/-- A step runs the decoded operation, as the agent that issued it (10_state.md R40, R41; 30_encoding.md R111); with
nothing issued nothing changes, and a step of PROC that is not enabled is passed over (the model's choices, log entries 2
and 6). -/
def Obligations.StepRunsDecodedOperation : Prop :=
  (∀ (s : State) (t : Issue) (rest : List Issue) (i : Instr), s.schedule = t :: rest → decode t.bytes = .ok i →
    enabled t.agent i s = true → step s = exec i { s with schedule := rest, issuer := t.agent }) ∧
  (∀ s : State, s.cfg.Legal → s.schedule = [] → step s = .next s) ∧
  (∀ (s : State) (t : Issue) (rest : List Issue) (i : Instr), s.cfg.Legal → s.schedule = t :: rest →
    decode t.bytes = .ok i → enabled t.agent i s = false → step s = .next { s with schedule := rest })

/-- 00_scope.md R6: no step changes the configuration. -/
def Obligations.ConfigurationNeverChanges : Prop :=
  ∀ s t : State, step s = .next t → t.cfg = s.cfg

/-- 60_exceptions.md R290: no error is fatal; from every state of an instance there is a next state, of an instance, and
every operation goes on to one, whatever it reports. -/
def Obligations.StepNeverHalts : Prop :=
  ∀ s : State, s.cfg.Legal →
    (∃ t, step s = .next t ∧ t.cfg.Legal) ∧ ∀ i, ∃ t, exec i s = .next t ∧ t.cfg.Legal

/-- 10_state.md R37 item 4 and 30_encoding.md R119: each operation returns one result, to whoever issued it, with a code
its row of R119 lists, and with the data bytes that row lists when the code is not OK. -/
def Obligations.EveryOperationReturnsOneResult : Prop :=
  ∀ (i : Instr) (s : State), s.cfg.Legal →
    ∃ t code data, exec i s = .next t ∧ t.replies = s.replies ++ [⟨s.issuer, code, data⟩] ∧
      code ∈ resultCodes i ∧ (code ≠ .ok → data.length = errorDataLength i)

/-- 60_exceptions.md R289: a step whose result is a refusal or a code that is not counted (one of the spec's own four, or
any code of COBS_DECODE or UNPACK) leaves `st`, `hist` and `tx` exactly as they were. -/
def Obligations.UncountedCodesChangeNothing : Prop :=
  ∀ (s t : State) (r : Reply), step s = .next t → t.replies = s.replies ++ [r] →
    (r.code = .payloadTooLong ∨ r.code = .noTerminator ∨ r.code = .illegalCommand ∨ r.code = .illegalOperand ∨
      ∃ u rest data, s.schedule = u :: rest ∧
        (decode u.bytes = .ok (.cobsDecode data) ∨ decode u.bytes = .ok (.unpack data))) →
    t.fifo = s.fifo ∧ t.flow = s.flow ∧ t.fcLine = s.fcLine ∧ t.cnt = s.cnt ∧ t.hist = s.hist ∧ t.tx = s.tx

/-- 30_encoding.md R121 and 20_memory.md section 3: the pure operations and READ_STATUS, whatever code they return, change
no state, emit nothing, and issued twice return the same result. -/
def Obligations.PureOperationsChangeNothing : Prop :=
  ∀ (i : Instr) (s t : State), (∀ c, i ≠ .append c) → (∀ a b c, i ≠ .write a b c) → i ≠ .takeFrame → i ≠ .reset →
    exec i s = .next t →
    ∃ code data, t = { s with replies := s.replies ++ [⟨s.issuer, code, data⟩] } ∧
      exec i t = .next { t with replies := t.replies ++ [⟨s.issuer, code, data⟩] }

/-- 10_state.md R35: a step leaves each counter at its value plus the number of its error events, modulo 2^32, and there
is at most one such event; or it is RESET, which clears all four. -/
def Obligations.CountersChangeOnlyByCount : Prop :=
  ∀ s t : State, step s = .next t →
    ∃ ev, t.hist = s.hist ++ ev ∧
      (((∃ u rest, s.schedule = u :: rest ∧ decode u.bytes = .ok .reset) ∧
          t.cnt = ⟨0#32, 0#32, 0#32, 0#32⟩ ∧ ∀ k, errorCount k ev = 0) ∨
        ((∀ k, (t.cnt.get k).toNat = ((s.cnt.get k).toNat + errorCount k ev) % 2 ^ 32) ∧
          ∃ k, errorCount k ev ≤ 1 ∧ ∀ k', k' ≠ k → errorCount k' ev = 0))

/-- 10_state.md R38: `hist` only grows, and `tx` by exactly the frames of the new `TxFrame` events; no step clears
either. -/
def Obligations.HistoryAndTransmitOnlyGrow : Prop :=
  ∀ s t : State, step s = .next t → ∃ ev, t.hist = s.hist ++ ev ∧ t.tx = s.tx ++ sentBytes ev

/-- 10_state.md R39, the last column of its table: the state each agent's own operations may change. -/
def Obligations.AgentFootprints : Prop :=
  ∀ (s t : State) (u : Issue) (rest : List Issue) (i : Instr), s.schedule = u :: rest → decode u.bytes = .ok i →
    mayIssue u.agent i = true → step s = .next t →
    (u.agent = .rx → t.tx = s.tx ∧ t.cnt.checksumMismatch = s.cnt.checksumMismatch ∧
      t.cnt.frameCorrupt = s.cnt.frameCorrupt ∧ t.cnt.truncatedMessage = s.cnt.truncatedMessage) ∧
    (u.agent = .proc → t.tx = s.tx ∧ t.cnt.bufferOverflow = s.cnt.bufferOverflow) ∧
    (u.agent = .tx → t.fifo = s.fifo ∧ t.flow = s.flow ∧ t.fcLine = s.fcLine ∧ t.cnt = s.cnt) ∧
    (u.agent = .host → t.tx = s.tx)

/-! ## Invariants -/

/-- 10_state.md R32: the FIFO is within its capacity at power-on, and every step keeps it there. -/
def Obligations.StepKeepsOccupancyBound : Prop :=
  (∀ c : Cfg, c.Legal → (State.powerOn c).OccWithinCapacity) ∧
  ∀ s t : State, s.OccWithinCapacity → step s = .next t → t.OccWithinCapacity

/-- 10_state.md section 1, the invariant on the flow state that the spec derives: every step keeps it. -/
def Obligations.StepKeepsFlowWithinBand : Prop :=
  ∀ s t : State, s.FlowWithinBand → step s = .next t → t.FlowWithinBand

/-- All invariants of the block together: at power-on with a legal configuration. -/
def Obligations.PowerOnMeetsInvariant : Prop :=
  ∀ c : Cfg, c.Legal → (State.powerOn c).Inv

/-- All invariants of the block together: the bound on the occupancy (10_state.md R32), the line as the mirror of the
flow (R34), the flow within its band (R36), `tx` as the frames of `hist` (R38) and the line as the last `FlowSet` (R34,
R38). Every step keeps them. -/
def Obligations.StepKeepsInvariant : Prop :=
  ∀ s t : State, s.Inv → step s = .next t → t.Inv

/-- The invariants hold in every state a run of any schedule from power-on reaches, and no such run halts (10_state.md
R32, R38; 60_exceptions.md R290). -/
def Obligations.EveryRunMeetsInvariant : Prop :=
  ∀ (c : Cfg) (schedule : List Issue) (n : Nat), c.Legal →
    ∃ t, runSteps n { State.powerOn c with schedule := schedule } = .next t ∧ t.Inv

/-! ## Frames through the block -/

/-- DRAIN (30_encoding.md section on pseudo-operations) and FIFO order (20_memory.md section 5): it takes every complete
frame of the FIFO, in the order their terminators arrived, gives each the fate of its run, leaves the partial frame,
and ends on NO_TERMINATOR. -/
def Obligations.DrainTakesFramesInOrder : Prop :=
  ∀ s : State, s.cfg.Legal →
    ∃ t ev, runScript (drainScript s) s = .next t ∧ t.hist = s.hist ++ ev ∧
      frameFates ev = (completeRuns s.fifo).map receive ∧ t.fifo = partialFrame s.fifo ∧ 0x00#8 ∉ t.fifo ∧
      t.replies.getLast? = some ⟨.host, .noTerminator, []⟩

/-- The loopback the spec derives (44_transmit_control.md section 1): a message written, its frame appended behind
complete frames with room for it, and the frames taken: the frames before it have their fates, and the last fate is the
message that was written. Every line is issued as HOST, the model's choice (log entry 17). -/
def Obligations.LoopbackDeliversMessage : Prop :=
  ∀ (id : MsgId) (cmd : MsgCmd) (p : Bytes) (s : State), s.cfg.Legal → p.length ≤ s.cfg.maxPayload →
    (s.fifo = [] ∨ s.fifo.getLast? = some 0x00#8) →
    s.fifo.length + (wireFrame id cmd p).length ≤ s.cfg.capacity →
    ∃ t ev,
      runScript (loopbackScript id cmd p ++ List.replicate (s.fifo.count 0x00#8 + 1) .takeFrame) s = .next t ∧
      t.hist = s.hist ++ ev ∧ t.fifo = [] ∧ t.tx = s.tx ++ wireFrame id cmd p ∧
      frameFates ev = (completeRuns s.fifo).map receive ++ [.ok ⟨id, cmd, BitVec.ofNat 8 p.length, p⟩]

/-- The progress the spec derives (70_reset_and_hazards.md section 5), in its bounded form: over any schedule without a
RESET, with no overflow on the way, as many of the frames that wait in the FIFO get their fate, in order and before any
other, as PROC is given steps. It rests on the consumer returning from every dispatch (10_state.md R42,
70_reset_and_hazards.md R324; log entry 13): a dispatch completes inside its step, and nothing is said of a consumer that
blocks. That the schedule is run empty rests on log entry 6: an entry whose PROC step is not enabled is passed over. The
form over endless runs, under weak fairness, is `waiting_frames_taken` of Laws/Endless.lean. -/
def Obligations.WaitingFramesAreTaken : Prop :=
  ∀ s : State, s.cfg.Legal → (∀ u ∈ s.schedule, decode u.bytes ≠ .ok .reset) →
    ∃ t ev, runSteps s.schedule.length s = .next t ∧ t.schedule = [] ∧ t.hist = s.hist ++ ev ∧
      (errorCount .bufferOverflow ev = 0 →
        ((completeRuns s.fifo).take (s.schedule.count ⟨.proc, [0x08#8]⟩)).map receive <+: frameFates ev)
end

