-- ==== Sys2Proof/Laws/Bytes.lean ====
section
/-! SUPPORT. The byte order of the command interface: how words and their bytes determine each other (20_memory.md R74). -/

namespace Sys2Proof.Laws

open Sys2Proof

/-- The value of two bytes, the first the more significant. -/
theorem ofBe16_toNat (hi lo : Byte) : (ofBe16 hi lo).toNat = hi.toNat * 256 + lo.toNat := by
  have h : (ofBe16 hi lo).toNat = hi.toNat <<< 8 ||| lo.toNat := BitVec.toNat_append hi lo
  have hlo := lo.isLt
  rw [h, ← Nat.shiftLeft_add_eq_or_of_lt (by omega), Nat.shiftLeft_eq]

/-- The two bytes of a value, the more significant first. -/
theorem be16_bytes (v : BitVec 16) : be16 v = [BitVec.ofNat 8 (v.toNat / 256), BitVec.ofNat 8 v.toNat] := by
  have h1 : v.extractLsb' 8 8 = BitVec.ofNat 8 (v.toNat / 256) := by
    apply BitVec.eq_of_toNat_eq; simp [BitVec.extractLsb'_toNat, Nat.shiftRight_eq_div_pow]
  have h2 : v.extractLsb' 0 8 = BitVec.ofNat 8 v.toNat := by
    apply BitVec.eq_of_toNat_eq; simp [BitVec.extractLsb'_toNat]
  rw [be16, h1, h2]

/-- A value read back from its bytes. -/
theorem ofBe16_be16 (v : BitVec 16) : ofBe16 (v.extractLsb' 8 8) (v.extractLsb' 0 8) = v := by
  apply BitVec.eq_of_toNat_eq
  rw [ofBe16_toNat]
  have := v.isLt
  simp [BitVec.extractLsb'_toNat, Nat.shiftRight_eq_div_pow]; omega

/-- Bytes read back from their value. -/
theorem be16_ofBe16 (hi lo : Byte) : be16 (ofBe16 hi lo) = [hi, lo] := by
  have h1 := hi.isLt; have h2 := lo.isLt
  rw [be16_bytes, ofBe16_toNat]
  congr 1
  · apply BitVec.eq_of_toNat_eq; simp; omega
  · congr 1; apply BitVec.eq_of_toNat_eq; simp; omega

/-- The four bytes of a value, the most significant first. -/
theorem be32_bytes (v : Word32) : be32 v = [BitVec.ofNat 8 (v.toNat / 16777216), BitVec.ofNat 8 (v.toNat / 65536),
    BitVec.ofNat 8 (v.toNat / 256), BitVec.ofNat 8 v.toNat] := by
  have h (k : Nat) : v.extractLsb' k 8 = BitVec.ofNat 8 (v.toNat / 2 ^ k) := by
    apply BitVec.eq_of_toNat_eq; simp [BitVec.extractLsb'_toNat, Nat.shiftRight_eq_div_pow]
  rw [be32, h, h, h, h]; norm_num

end Sys2Proof.Laws
end

