-- ==== Sys2Proof/Laws/State.lean ====
section
/-! SUPPORT. What each named operation does to each field of the state. -/

namespace Sys2Proof.Machine

open Sys2Proof

/-! ### reply -/

@[simp] theorem reply_cfg (c : ResultCode) (d : Bytes) (s : State) : (reply c d s).cfg = s.cfg := rfl
@[simp] theorem reply_fifo (c : ResultCode) (d : Bytes) (s : State) : (reply c d s).fifo = s.fifo := rfl
@[simp] theorem reply_flow (c : ResultCode) (d : Bytes) (s : State) : (reply c d s).flow = s.flow := rfl
@[simp] theorem reply_fcLine (c : ResultCode) (d : Bytes) (s : State) : (reply c d s).fcLine = s.fcLine := rfl
@[simp] theorem reply_cnt (c : ResultCode) (d : Bytes) (s : State) : (reply c d s).cnt = s.cnt := rfl
@[simp] theorem reply_hist (c : ResultCode) (d : Bytes) (s : State) : (reply c d s).hist = s.hist := rfl
@[simp] theorem reply_tx (c : ResultCode) (d : Bytes) (s : State) : (reply c d s).tx = s.tx := rfl
@[simp] theorem reply_replies (c : ResultCode) (d : Bytes) (s : State) : (reply c d s).replies = s.replies ++ [⟨s.issuer, c, d⟩] := rfl
@[simp] theorem reply_schedule (c : ResultCode) (d : Bytes) (s : State) : (reply c d s).schedule = s.schedule := rfl
@[simp] theorem reply_issuer (c : ResultCode) (d : Bytes) (s : State) : (reply c d s).issuer = s.issuer := rfl

/-! ### refuse -/

@[simp] theorem refuse_cfg (c : ResultCode) (s : State) : (refuse c s).cfg = s.cfg := rfl
@[simp] theorem refuse_fifo (c : ResultCode) (s : State) : (refuse c s).fifo = s.fifo := rfl
@[simp] theorem refuse_flow (c : ResultCode) (s : State) : (refuse c s).flow = s.flow := rfl
@[simp] theorem refuse_fcLine (c : ResultCode) (s : State) : (refuse c s).fcLine = s.fcLine := rfl
@[simp] theorem refuse_cnt (c : ResultCode) (s : State) : (refuse c s).cnt = s.cnt := rfl
@[simp] theorem refuse_hist (c : ResultCode) (s : State) : (refuse c s).hist = s.hist := rfl
@[simp] theorem refuse_tx (c : ResultCode) (s : State) : (refuse c s).tx = s.tx := rfl
@[simp] theorem refuse_replies (c : ResultCode) (s : State) : (refuse c s).replies = s.replies ++ [⟨s.issuer, c, []⟩] := rfl
@[simp] theorem refuse_schedule (c : ResultCode) (s : State) : (refuse c s).schedule = s.schedule := rfl
@[simp] theorem refuse_issuer (c : ResultCode) (s : State) : (refuse c s).issuer = s.issuer := rfl

/-! ### emit -/

@[simp] theorem emit_cfg (e : Event) (s : State) : (emit e s).cfg = s.cfg := rfl
@[simp] theorem emit_fifo (e : Event) (s : State) : (emit e s).fifo = s.fifo := rfl
@[simp] theorem emit_flow (e : Event) (s : State) : (emit e s).flow = s.flow := rfl
@[simp] theorem emit_fcLine (e : Event) (s : State) : (emit e s).fcLine = s.fcLine := rfl
@[simp] theorem emit_cnt (e : Event) (s : State) : (emit e s).cnt = s.cnt := rfl
@[simp] theorem emit_hist (e : Event) (s : State) : (emit e s).hist = s.hist ++ [e] := rfl
@[simp] theorem emit_tx (e : Event) (s : State) : (emit e s).tx = s.tx := rfl
@[simp] theorem emit_replies (e : Event) (s : State) : (emit e s).replies = s.replies := rfl
@[simp] theorem emit_schedule (e : Event) (s : State) : (emit e s).schedule = s.schedule := rfl
@[simp] theorem emit_issuer (e : Event) (s : State) : (emit e s).issuer = s.issuer := rfl

/-! ### count -/

@[simp] theorem count_cfg (k : ErrorKind) (s : State) : (count k s).cfg = s.cfg := rfl
@[simp] theorem count_fifo (k : ErrorKind) (s : State) : (count k s).fifo = s.fifo := rfl
@[simp] theorem count_flow (k : ErrorKind) (s : State) : (count k s).flow = s.flow := rfl
@[simp] theorem count_fcLine (k : ErrorKind) (s : State) : (count k s).fcLine = s.fcLine := rfl
@[simp] theorem count_cnt (k : ErrorKind) (s : State) : (count k s).cnt = s.cnt.bump k := rfl
@[simp] theorem count_hist (k : ErrorKind) (s : State) : (count k s).hist = s.hist ++ [.error k] := rfl
@[simp] theorem count_tx (k : ErrorKind) (s : State) : (count k s).tx = s.tx := rfl
@[simp] theorem count_replies (k : ErrorKind) (s : State) : (count k s).replies = s.replies := rfl
@[simp] theorem count_schedule (k : ErrorKind) (s : State) : (count k s).schedule = s.schedule := rfl
@[simp] theorem count_issuer (k : ErrorKind) (s : State) : (count k s).issuer = s.issuer := rfl

/-! ### clearCounters -/

@[simp] theorem clearCounters_cfg (s : State) : (clearCounters s).cfg = s.cfg := rfl
@[simp] theorem clearCounters_fifo (s : State) : (clearCounters s).fifo = s.fifo := rfl
@[simp] theorem clearCounters_flow (s : State) : (clearCounters s).flow = s.flow := rfl
@[simp] theorem clearCounters_fcLine (s : State) : (clearCounters s).fcLine = s.fcLine := rfl
@[simp] theorem clearCounters_cnt (s : State) : (clearCounters s).cnt = Counters.zero := rfl
@[simp] theorem clearCounters_hist (s : State) : (clearCounters s).hist = s.hist := rfl
@[simp] theorem clearCounters_tx (s : State) : (clearCounters s).tx = s.tx := rfl
@[simp] theorem clearCounters_replies (s : State) : (clearCounters s).replies = s.replies := rfl
@[simp] theorem clearCounters_schedule (s : State) : (clearCounters s).schedule = s.schedule := rfl
@[simp] theorem clearCounters_issuer (s : State) : (clearCounters s).issuer = s.issuer := rfl

/-! ### setFifo -/

@[simp] theorem setFifo_cfg (b : Bytes) (s : State) : (setFifo b s).cfg = s.cfg := rfl
@[simp] theorem setFifo_fifo (b : Bytes) (s : State) : (setFifo b s).fifo = b := rfl
@[simp] theorem setFifo_flow (b : Bytes) (s : State) : (setFifo b s).flow = s.flow := rfl
@[simp] theorem setFifo_fcLine (b : Bytes) (s : State) : (setFifo b s).fcLine = s.fcLine := rfl
@[simp] theorem setFifo_cnt (b : Bytes) (s : State) : (setFifo b s).cnt = s.cnt := rfl
@[simp] theorem setFifo_hist (b : Bytes) (s : State) : (setFifo b s).hist = s.hist := rfl
@[simp] theorem setFifo_tx (b : Bytes) (s : State) : (setFifo b s).tx = s.tx := rfl
@[simp] theorem setFifo_replies (b : Bytes) (s : State) : (setFifo b s).replies = s.replies := rfl
@[simp] theorem setFifo_schedule (b : Bytes) (s : State) : (setFifo b s).schedule = s.schedule := rfl
@[simp] theorem setFifo_issuer (b : Bytes) (s : State) : (setFifo b s).issuer = s.issuer := rfl

/-! ### transmit -/

@[simp] theorem transmit_cfg (w : Bytes) (s : State) : (transmit w s).cfg = s.cfg := rfl
@[simp] theorem transmit_fifo (w : Bytes) (s : State) : (transmit w s).fifo = s.fifo := rfl
@[simp] theorem transmit_flow (w : Bytes) (s : State) : (transmit w s).flow = s.flow := rfl
@[simp] theorem transmit_fcLine (w : Bytes) (s : State) : (transmit w s).fcLine = s.fcLine := rfl
@[simp] theorem transmit_cnt (w : Bytes) (s : State) : (transmit w s).cnt = s.cnt := rfl
@[simp] theorem transmit_hist (w : Bytes) (s : State) : (transmit w s).hist = s.hist ++ [.txFrame w] := rfl
@[simp] theorem transmit_tx (w : Bytes) (s : State) : (transmit w s).tx = s.tx ++ w := rfl
@[simp] theorem transmit_replies (w : Bytes) (s : State) : (transmit w s).replies = s.replies := rfl
@[simp] theorem transmit_schedule (w : Bytes) (s : State) : (transmit w s).schedule = s.schedule := rfl
@[simp] theorem transmit_issuer (w : Bytes) (s : State) : (transmit w s).issuer = s.issuer := rfl

/-! ### driveFlow -/

@[simp] theorem driveFlow_cfg (f : Flow) (s : State) : (driveFlow f s).cfg = s.cfg := rfl
@[simp] theorem driveFlow_fifo (f : Flow) (s : State) : (driveFlow f s).fifo = s.fifo := rfl
@[simp] theorem driveFlow_flow (f : Flow) (s : State) : (driveFlow f s).flow = f := rfl
@[simp] theorem driveFlow_fcLine (f : Flow) (s : State) : (driveFlow f s).fcLine = f.level := rfl
@[simp] theorem driveFlow_cnt (f : Flow) (s : State) : (driveFlow f s).cnt = s.cnt := rfl
@[simp] theorem driveFlow_hist (f : Flow) (s : State) : (driveFlow f s).hist = s.hist ++ [.flowSet f.level] := rfl
@[simp] theorem driveFlow_tx (f : Flow) (s : State) : (driveFlow f s).tx = s.tx := rfl
@[simp] theorem driveFlow_replies (f : Flow) (s : State) : (driveFlow f s).replies = s.replies := rfl
@[simp] theorem driveFlow_schedule (f : Flow) (s : State) : (driveFlow f s).schedule = s.schedule := rfl
@[simp] theorem driveFlow_issuer (f : Flow) (s : State) : (driveFlow f s).issuer = s.issuer := rfl

/-! ### occ -/

@[simp] theorem occ_setFifo (b : Bytes) (s : State) : occ (setFifo b s) = b.length := rfl
@[simp] theorem occ_reply (c : ResultCode) (d : Bytes) (s : State) : occ (reply c d s) = occ s := rfl
@[simp] theorem occ_emit (e : Event) (s : State) : occ (emit e s) = occ s := rfl
@[simp] theorem occ_count (k : ErrorKind) (s : State) : occ (count k s) = occ s := rfl
@[simp] theorem occ_transmit (w : Bytes) (s : State) : occ (transmit w s) = occ s := rfl
@[simp] theorem occ_driveFlow (f : Flow) (s : State) : occ (driveFlow f s) = occ s := rfl
@[simp] theorem occ_clearCounters (s : State) : occ (clearCounters s) = occ s := rfl

/-! ### power-on -/

@[simp] theorem powerOn_cfg (c : Cfg) : (State.powerOn c).cfg = c := rfl
@[simp] theorem powerOn_fifo (c : Cfg) : (State.powerOn c).fifo = [] := rfl
@[simp] theorem powerOn_flow (c : Cfg) : (State.powerOn c).flow = .flowing := rfl
@[simp] theorem powerOn_fcLine (c : Cfg) : (State.powerOn c).fcLine = true := rfl
@[simp] theorem powerOn_cnt (c : Cfg) : (State.powerOn c).cnt = Counters.zero := rfl
@[simp] theorem powerOn_hist (c : Cfg) : (State.powerOn c).hist = [] := rfl
@[simp] theorem powerOn_tx (c : Cfg) : (State.powerOn c).tx = [] := rfl
@[simp] theorem powerOn_replies (c : Cfg) : (State.powerOn c).replies = [] := rfl
@[simp] theorem powerOn_schedule (c : Cfg) : (State.powerOn c).schedule = [] := rfl
@[simp] theorem powerOn_issuer (c : Cfg) : (State.powerOn c).issuer = .host := rfl

end Sys2Proof.Machine
end

