-- ==== Sys2Proof/Laws/Ops.lean ====
section
/-! SUPPORT. One lemma for each shared operation: everything it can do. -/

namespace Sys2Proof.Machine

open Sys2Proof

/-! ### onInstance -/

theorem onInstance_of_legal {s : State} (t : State) (h : s.cfg.Legal) : onInstance s t = .next t := if_pos h

theorem onInstance_of_not_legal {s : State} (t : State) (h : ¬ s.cfg.Legal) :
    onInstance s t = .refused .illegalConfig := if_neg h

/-- `onInstance` answers a next state only for a legal configuration, and then the one it was given. -/
theorem onInstance_eq_next {s t t' : State} : onInstance s t = .next t' ↔ s.cfg.Legal ∧ t = t' := by
  by_cases h : s.cfg.Legal
  · rw [onInstance_of_legal t h]
    exact ⟨fun e => ⟨h, Host.Outcome.next.inj e⟩, fun e => by rw [e.2]⟩
  · rw [onInstance_of_not_legal t h]
    exact ⟨(fun e => nomatch e), fun e => absurd e.1 h⟩

/-- `onInstance` looks only at the configuration. -/
theorem onInstance_congr {s s' : State} (t : State) (h : s.cfg = s'.cfg) : onInstance s t = onInstance s' t := by
  unfold onInstance; rw [h]

/-! ### the flow flag -/

@[simp] theorem level_flowing : Flow.flowing.level = true := rfl
@[simp] theorem level_paused : Flow.paused.level = false := rfl

/-- Everything `flow_eval` can do: pause, resume, or nothing (43_intake_flow.md R210). -/
theorem flowEval_cases (s : State) :
    (s.flow = .flowing ∧ s.cfg.highWatermark ≤ occ s ∧ flowEval s = driveFlow .paused s) ∨
    (s.flow = .paused ∧ occ s ≤ s.cfg.lowWatermark ∧ flowEval s = driveFlow .flowing s) ∨
    ((s.flow = .flowing → occ s < s.cfg.highWatermark) ∧ (s.flow = .paused → s.cfg.lowWatermark < occ s) ∧
      flowEval s = s) := by
  by_cases h1 : s.flow = .flowing ∧ s.cfg.highWatermark ≤ occ s
  · exact .inl ⟨h1.1, h1.2, if_pos h1⟩
  · by_cases h2 : s.flow = .paused ∧ occ s ≤ s.cfg.lowWatermark
    · exact .inr (.inl ⟨h2.1, h2.2, by rw [flowEval, if_neg h1, if_pos h2]⟩)
    · refine .inr (.inr ⟨fun hf => ?_, fun hp => ?_, by rw [flowEval, if_neg h1, if_neg h2]⟩)
      · by_contra hc; exact h1 ⟨hf, by omega⟩
      · by_contra hc; exact h2 ⟨hp, by omega⟩

section
variable (s : State)

@[simp] theorem flowEval_cfg : (flowEval s).cfg = s.cfg := by
  rcases flowEval_cases s with ⟨_, _, h⟩ | ⟨_, _, h⟩ | ⟨_, _, h⟩ <;> rw [h] <;> rfl
@[simp] theorem flowEval_fifo : (flowEval s).fifo = s.fifo := by
  rcases flowEval_cases s with ⟨_, _, h⟩ | ⟨_, _, h⟩ | ⟨_, _, h⟩ <;> rw [h] <;> rfl
@[simp] theorem flowEval_cnt : (flowEval s).cnt = s.cnt := by
  rcases flowEval_cases s with ⟨_, _, h⟩ | ⟨_, _, h⟩ | ⟨_, _, h⟩ <;> rw [h] <;> rfl
@[simp] theorem flowEval_tx : (flowEval s).tx = s.tx := by
  rcases flowEval_cases s with ⟨_, _, h⟩ | ⟨_, _, h⟩ | ⟨_, _, h⟩ <;> rw [h] <;> rfl
@[simp] theorem flowEval_replies : (flowEval s).replies = s.replies := by
  rcases flowEval_cases s with ⟨_, _, h⟩ | ⟨_, _, h⟩ | ⟨_, _, h⟩ <;> rw [h] <;> rfl
@[simp] theorem flowEval_schedule : (flowEval s).schedule = s.schedule := by
  rcases flowEval_cases s with ⟨_, _, h⟩ | ⟨_, _, h⟩ | ⟨_, _, h⟩ <;> rw [h] <;> rfl
@[simp] theorem flowEval_issuer : (flowEval s).issuer = s.issuer := by
  rcases flowEval_cases s with ⟨_, _, h⟩ | ⟨_, _, h⟩ | ⟨_, _, h⟩ <;> rw [h] <;> rfl

end

/-! ### first0 -/

/-- `first0` finds nothing exactly when there is no 0x00. -/
theorem first0_eq_none {b : Bytes} : first0 b = none ↔ 0#8 ∉ b := by
  induction b with
  | nil => simp [first0]
  | cons x rest ih =>
    by_cases h : x = 0#8
    · simp [first0, h]
    · simp [first0, h, ih, Ne.symm h]

/-- `first0` finds the end of the bytes before the first 0x00. -/
theorem first0_append_zero {run rest : Bytes} (h : 0#8 ∉ run) : first0 (run ++ 0#8 :: rest) = some run.length := by
  induction run with
  | nil => simp [first0]
  | cons x run ih =>
    simp only [List.mem_cons, not_or] at h
    simp [first0, Ne.symm h.1, ih h.2]

/-- What `first0` finds splits the bytes at their first 0x00. -/
theorem first0_eq_some {b : Bytes} {t : Nat} (h : first0 b = some t) :
    0#8 ∉ b.take t ∧ b = b.take t ++ 0#8 :: b.drop (t + 1) := by
  induction b generalizing t with
  | nil => simp [first0] at h
  | cons x rest ih =>
    by_cases hx : x = 0#8
    · simp only [first0, hx, if_true, Option.some.injEq] at h; subst h; simp [hx]
    · simp only [first0, hx, if_false, Option.map_eq_some_iff] at h
      obtain ⟨u, hu, rfl⟩ := h
      obtain ⟨h1, h2⟩ := ih hu
      refine ⟨by simp [h1, Ne.symm hx], ?_⟩
      simpa using h2

/-! ### events -/

@[simp] theorem sentBytes_append (a b : List Event) : sentBytes (a ++ b) = sentBytes a ++ sentBytes b := by
  induction a with
  | nil => rfl
  | cons e a ih => cases e <;> simp [sentBytes, ih]

@[simp] theorem lineAfter_append (l : Bool) (a b : List Event) :
    lineAfter l (a ++ b) = lineAfter (lineAfter l a) b := by
  induction a generalizing l with
  | nil => rfl
  | cons e a ih => cases e <;> simp [lineAfter, ih]

@[simp] theorem flowLevels_append (a b : List Event) : flowLevels (a ++ b) = flowLevels a ++ flowLevels b := by
  induction a with
  | nil => rfl
  | cons e a ih => cases e <;> simp [flowLevels, ih]

@[simp] theorem frameFates_append (a b : List Event) : frameFates (a ++ b) = frameFates a ++ frameFates b := by
  induction a with
  | nil => rfl
  | cons e a ih =>
    cases e with
    | error k => cases k <;> simp [frameFates, ih]
    | _ => simp [frameFates, ih]

/-- The flow evaluation emits at most one event, of the flow alone (43_intake_flow.md R211). -/
theorem flowEval_hist (s : State) :
    ∃ ev, (flowEval s).hist = s.hist ++ ev ∧ frameFates ev = [] ∧ sentBytes ev = [] ∧ ∀ k, errorCount k ev = 0 := by
  rcases flowEval_cases s with ⟨_, _, h⟩ | ⟨_, _, h⟩ | ⟨_, _, h⟩ <;> rw [h]
  · exact ⟨[.flowSet false], by simp [frameFates, sentBytes, errorCount]⟩
  · exact ⟨[.flowSet true], by simp [frameFates, sentBytes, errorCount]⟩
  · exact ⟨[], by simp [frameFates, sentBytes, errorCount]⟩

end Sys2Proof.Machine
end

