-- ==== Sys2Proof/Laws/Codec.lean ====
section
/-! SUPPORT. The Frame Codec: how the decoder reads one group, how the encoder writes one, and the result fields that
carry a length. -/

namespace Sys2Proof.Machine

open Sys2Proof

/-! ### The decoder -/

/-- More turns than bytes change nothing. -/
theorem decodeGroups_turns (n : Nat) :
    ∀ (m : Nat) (f : Bytes), f.length ≤ n → f.length ≤ m → decodeGroups n f = decodeGroups m f := by
  induction n with
  | zero =>
    intro m f h _
    have : f = [] := List.length_eq_zero_iff.mp (by omega)
    subst this; cases m <;> rfl
  | succ n ih =>
    intro m f h1 h2
    cases f with
    | nil => cases m <;> rfl
    | cons k rest =>
      cases m with
      | zero => simp at h2
      | succ m =>
        simp only [List.length_cons] at h1 h2
        simp only [decodeGroups]
        rw [ih m] <;> simp only [List.length_drop] <;> omega

/-- The decoder takes one group a turn (41_frame_codec.md R170). -/
theorem cobsDecodeRun_cons (k : Byte) (rest : Bytes) :
    cobsDecodeRun (k :: rest) =
      if rest.length < k.toNat - 1 then none
      else if rest.drop (k.toNat - 1) = [] then some (rest.take (k.toNat - 1))
      else (cobsDecodeRun (rest.drop (k.toNat - 1))).map fun out =>
        rest.take (k.toNat - 1) ++ (if k = 0xFF#8 then [] else [0x00#8]) ++ out := by
  rw [cobsDecodeRun, List.length_cons, decodeGroups, cobsDecodeRun]
  rw [decodeGroups_turns rest.length (rest.drop (k.toNat - 1)).length _ (by simp) (by simp)]

/-- Decoded bytes are fewer than the run's. -/
theorem length_of_cobsDecodeRun {f r : Bytes} (h : cobsDecodeRun f = some r) : r.length < f.length := by
  induction hn : f.length using Nat.strong_induction_on generalizing f r with
  | _ n ih =>
    cases f with
    | nil => cases h
    | cons k rest =>
      rw [cobsDecodeRun_cons] at h
      split at h
      · cases h
      split at h
      · cases h; simp at hn ⊢; omega
      · rename_i h1 h2
        simp only [Option.map_eq_some_iff] at h
        obtain ⟨o, ho, rfl⟩ := h
        have := ih _ (by simp at hn ⊢; omega) ho rfl
        simp only [List.length_append, List.length_take, List.length_drop, List.length_cons] at *
        split <;> simp <;> omega

/-! ### The encoder -/

/-- Only a full group can end the encoding without another group. -/
theorem cobsGroupsFrom_ne_nil (run x : Bytes) : cobsGroupsFrom run false x ≠ [] := by
  induction x generalizing run with
  | nil => simp [cobsGroupsFrom, shortGroup]
  | cons b x ih =>
    rw [cobsGroupsFrom]
    split
    · simp [shortGroup]
    split
    · simp
    exact ih _

/-- After a full group nothing follows the end of the input; everything else is as without it. -/
theorem cobsGroupsFrom_full (x : Bytes) :
    cobsGroupsFrom [] true x = if x = [] then [] else cobsGroupsFrom [] false x := by
  cases x <;> rfl

/-- Bytes that are not 0x00 wait until their group is complete. -/
theorem cobsGroupsFrom_append {t : Bytes} (x : Bytes) :
    ∀ run : Bytes, 0#8 ∉ t → (run ++ t).length < 254 →
      cobsGroupsFrom run false (t ++ x) = cobsGroupsFrom (run ++ t) false x := by
  induction t with
  | nil => intro run _ _; rw [List.append_nil]; rfl
  | cons b t ih =>
    intro run h hl
    simp only [List.mem_cons, not_or] at h
    rw [List.cons_append, cobsGroupsFrom, if_neg (Ne.symm h.1), if_neg (by simp at hl ⊢; omega),
      ih _ h.2 (by rw [List.append_assoc]; exact hl), List.append_assoc]
    rfl

/-- A run that a 0x00 ends is one short group (41_frame_codec.md R162). -/
theorem cobsGroups_append_zero {t : Bytes} (x : Bytes) (h : 0#8 ∉ t) (hl : t.length < 254) :
    cobsGroups (t ++ 0#8 :: x) = shortGroup t ++ cobsGroups x := by
  rw [cobsGroups, cobsGroupsFrom_append _ [] h (by simpa using hl)]; simp [cobsGroupsFrom, cobsGroups]

/-- A run that the input's end ends is one short group (41_frame_codec.md R162). -/
theorem cobsGroups_last {t : Bytes} (h : 0#8 ∉ t) (hl : t.length < 254) : cobsGroups t = shortGroup t := by
  have := cobsGroupsFrom_append [] [] h (by simpa using hl)
  simp at this; rw [cobsGroups, this]; rfl

/-- A run's first 254 bytes are one full group (41_frame_codec.md R162). -/
theorem cobsGroups_append_full {t : Bytes} (x : Bytes) (h : 0#8 ∉ t) (hl : t.length = 254) :
    cobsGroups (t ++ x) = 0xFF#8 :: t ++ (if x = [] then [] else cobsGroups x) := by
  obtain ⟨u, b, rfl⟩ : ∃ u b, t = u ++ [b] :=
    ⟨t.dropLast, t.getLast (by rintro rfl; simp at hl), (List.dropLast_append_getLast _).symm⟩
  simp only [List.mem_append, not_or, List.mem_singleton] at h
  simp only [List.length_append, List.length_cons, List.length_nil] at hl
  rw [cobsGroups, List.append_assoc, cobsGroupsFrom_append _ [] h.1 (by simp; omega)]
  rw [List.singleton_append, cobsGroupsFrom, if_neg (Ne.symm h.2), if_pos (by simp; omega), cobsGroupsFrom_full]
  simp [cobsGroups]

/-! ### Length fields -/

/-- A length that 16 bits hold is its own value, big-endian. -/
theorem lenData_of_le {d : Bytes} (h : d.length ≤ 65535) :
    lenData d = [BitVec.ofNat 8 (d.length / 256), BitVec.ofNat 8 d.length] ++ d := by
  have e : (BitVec.ofNat 16 d.length).toNat = d.length := by simp; omega
  rw [lenData, len16, if_pos h, Laws.be16_bytes, e]

/-- A count that 16 bits hold is its own value, big-endian. -/
theorem consumed16_of_le {n : Nat} (h : n ≤ 65535) : consumed16 n = [BitVec.ofNat 8 (n / 256), BitVec.ofNat 8 n] := by
  have e : (BitVec.ofNat 16 n).toNat = n := by simp; omega
  rw [consumed16, if_pos h, Laws.be16_bytes, e]

end Sys2Proof.Machine
end

