-- ==== Sys2Proof/Laws/Exec.lean ====
section
/-! SUPPORT. What an operation and a step can do, said once. -/

namespace Sys2Proof.Machine

open Sys2Proof

/-- The state an operation leaves, on an instance. -/
def effect : Instr → State → State
  | .reset, s => reply .ok [] (clearCounters (driveFlow .flowing (setFifo [] s)))
  | .checksum data, s => reply .ok [checksum data] s
  | .verify data, s => reply .ok [if verify data then 0x01#8 else 0x00#8] s
  | .cobsEncode data, s => reply .ok (lenData (cobsFrame data)) s
  | .cobsDecode data, s =>
    match first0 data with
    | none => reply .noTerminator (consumed16 0) s
    | some t =>
      match cobsDecodeRun (data.take t) with
      | none => reply .frameCorrupt (consumed16 (t + 1)) s
      | some r => reply .ok (consumed16 (t + 1) ++ lenData r) s
  | .pack id cmd payload, s =>
    if s.cfg.maxPayload < payload.length then reply .payloadTooLong [] s
    else reply .ok (lenData (pack id cmd payload)) s
  | .unpack data, s =>
    match unpack data with
    | .error k => reply k.code [] s
    | .ok m => reply .ok (messageData m) s
  | .append chunk, s => appendChunk chunk s
  | .takeFrame, s => takeFrame s
  | .write id cmd payload, s =>
    if s.cfg.maxPayload < payload.length then reply .payloadTooLong [] s
    else reply .ok [] (transmit (wireFrame id cmd payload) s)
  | .readStatus reg, s =>
    match statusValue reg s with
    | some v => reply .ok (be32 v) s
    | none => refuse .illegalOperand s

/-- Every operation is its effect on an instance. -/
theorem exec_eq (i : Instr) (s : State) : exec i s = onInstance s (effect i s) := by cases i <;> rfl

/-- An operation answers a next state exactly on an instance, and then its effect. -/
theorem exec_eq_next {i : Instr} {s t : State} : exec i s = .next t ↔ s.cfg.Legal ∧ effect i s = t := by
  rw [exec_eq, onInstance_eq_next]

/-- No operation writes the configuration (00_scope.md R6). -/
@[simp] theorem effect_cfg (i : Instr) (s : State) : (effect i s).cfg = s.cfg := by
  cases i <;> simp only [effect, appendChunk, takeFrame, refuse] <;> (repeat' split) <;> simp

/-- Everything TAKE_FRAME can do (43_intake_flow.md R220). -/
theorem takeFrame_cases (s : State) :
    (0#8 ∉ s.fifo ∧ takeFrame s = reply .noTerminator [] s) ∨
    ∃ run rest, 0#8 ∉ run ∧ s.fifo = run ++ 0#8 :: rest ∧
      ((∃ k, receive run = .error k ∧ takeFrame s = reply k.code [] (count k (flowEval (setFifo rest s)))) ∨
       (∃ m, receive run = .ok m ∧ takeFrame s = reply .ok [] (emit (.dispatch m) (flowEval (setFifo rest s))))) := by
  cases h : first0 s.fifo with
  | none => exact .inl ⟨first0_eq_none.mp h, by simp [takeFrame, h]⟩
  | some t =>
    obtain ⟨h1, h2⟩ := first0_eq_some h
    refine .inr ⟨s.fifo.take t, s.fifo.drop (t + 1), h1, h2, ?_⟩
    cases hr : receive (s.fifo.take t) with
    | error k => exact .inl ⟨k, rfl, by simp [takeFrame, h, hr]⟩
    | ok m => exact .inr ⟨m, rfl, by simp [takeFrame, h, hr]⟩

/-- The errors of a received frame are the three that drop it (60_exceptions.md R292 item 4). -/
theorem receive_error {run : Bytes} {k : ErrorKind} (h : receive run = .error k) :
    k = .frameCorrupt ∨ k = .truncatedMessage ∨ k = .checksumMismatch := by
  unfold receive unpack at h
  split at h
  · cases h; exact .inl rfl
  · split at h
    · cases h; exact .inr (.inl rfl)
    · dsimp only at h
      split at h
      · cases h; exact .inr (.inl rfl)
      · split at h
        · cases h
        · cases h; exact .inr (.inr rfl)

/-- Everything a step can do: stop for want of a legal configuration; idle; refuse a transaction; pass over a step that is
not enabled; or run an operation. -/
theorem step_cases (s : State) :
    (¬ s.cfg.Legal ∧ step s = .refused .illegalConfig) ∨
    (s.cfg.Legal ∧ s.schedule = [] ∧ step s = .next s) ∨
    (s.cfg.Legal ∧ ∃ t rest, s.schedule = t :: rest ∧
      ((∃ r, decode t.bytes = .error r ∧
          step s = .next (refuse (rejectCode r) { s with schedule := rest, issuer := t.agent })) ∨
       (∃ i, decode t.bytes = .ok i ∧ enabled t.agent i s = false ∧ step s = .next { s with schedule := rest }) ∨
       (∃ i, decode t.bytes = .ok i ∧ enabled t.agent i s = true ∧
          step s = .next (effect i { s with schedule := rest, issuer := t.agent })))) := by
  by_cases hl : s.cfg.Legal
  · cases hs : s.schedule with
    | nil => exact .inr (.inl ⟨hl, rfl, by simp [step, runNext, hs, onInstance_of_legal _ hl]⟩)
    | cons t rest =>
      refine .inr (.inr ⟨hl, t, rest, rfl, ?_⟩)
      cases hd : decode t.bytes with
      | error r =>
        refine .inl ⟨r, rfl, ?_⟩
        simp only [step, runNext, hs, runTransaction, hd]
        exact onInstance_of_legal _ hl
      | ok i =>
        have he : enabled t.agent i { s with schedule := rest } = enabled t.agent i s := by
          cases t.agent <;> cases i <;> rfl
        cases hb : enabled t.agent i s with
        | false =>
          refine .inr (.inl ⟨i, rfl, hb, ?_⟩)
          simp only [step, runNext, hs, runTransaction, hd, he, hb]
          exact onInstance_of_legal _ hl
        | true =>
          refine .inr (.inr ⟨i, rfl, hb, ?_⟩)
          simp only [step, runNext, hs, runTransaction, hd, he, hb, exec_eq, if_true]
          exact onInstance_of_legal _ hl
  · refine .inl ⟨hl, ?_⟩
    cases hs : s.schedule with
    | nil => simp only [step, runNext, hs]; exact onInstance_of_not_legal _ hl
    | cons t rest =>
      simp only [step, runNext, hs, runTransaction]
      split
      · exact onInstance_of_not_legal _ hl
      · split
        · rw [exec_eq]; exact onInstance_of_not_legal _ hl
        · exact onInstance_of_not_legal _ hl

end Sys2Proof.Machine
end

