-- ==== Sys2Proof/Machine/Endless.lean ====
section
/-! DEFINITION. Endless runs of the block and the weak fairness of PROC over them (70_reset_and_hazards.md R325; log entry
16). The schedule of an endless run is indexed by moments and stands outside State, whose own `schedule` is finite. -/

namespace Sys2Proof.Machine

open Sys2Proof

/-- What is issued at each moment of an endless run: one agent's transaction, or nothing, when no agent steps
(70_reset_and_hazards.md R323). -/
abbrev EndlessSchedule := Nat → Option Issue

/-- One moment: the machine's step with that issue, if any, as the only one to come. -/
def moment (issued : Option Issue) (s : State) : Out := step { s with schedule := issued.toList }

/-- `run` is the endless run of a schedule: each moment leads from one of its states to the next. -/
def IsRun (issued : EndlessSchedule) (run : Nat → State) : Prop :=
  ∀ n, moment (issued n) (run n) = .next (run (n + 1))

/-- TAKE_FRAME as PROC issues it (10_state.md R39). -/
def procTakesFrame : Issue := ⟨.proc, encode .takeFrame⟩

/-- PROC is weakly fair: if TAKE_FRAME stays enabled, PROC eventually takes its step (70_reset_and_hazards.md R325). -/
def ProcWeaklyFair (issued : EndlessSchedule) (run : Nat → State) : Prop :=
  ∀ n, (∀ m, n ≤ m → enabled .proc .takeFrame (run m) = true) → ∃ m, n ≤ m ∧ issued m = some procTakesFrame

/-- Whether a moment discards what waits in the FIFO: a RESET, or an APPEND that overflows (70_reset_and_hazards.md R325;
43_intake_flow.md R216, 44_transmit_control.md R262). -/
def Discards (issued : Option Issue) (s : State) : Prop :=
  ∃ t, issued = some t ∧
    (decode t.bytes = .ok .reset ∨
      ∃ chunk, decode t.bytes = .ok (.append chunk) ∧ chunk ≠ [] ∧ s.cfg.capacity < occ s + chunk.length)

end Sys2Proof.Machine
end

