-- ==== Sys2Proof/Laws/Endless.lean ====
section
/-! SUPPORT. Endless runs: they exist for every schedule, and under weak fairness of PROC they take every waiting frame
that is not discarded first (70_reset_and_hazards.md R325). -/

namespace Sys2Proof.Machine

open Sys2Proof

/-! ### Frames waiting in the FIFO -/

/-- Without a 0x00 no frame waits. -/
theorem completeRunsFrom_of_no_zero {x : Bytes} (h : 0#8 ∉ x) (run : Bytes) : completeRunsFrom run x = [] := by
  induction x generalizing run with
  | nil => rfl
  | cons b x ih =>
    simp only [List.mem_cons, not_or] at h
    rw [completeRunsFrom, if_neg (Ne.symm h.1), ih h.2]

/-- The first 0x00 ends the first waiting frame. -/
theorem completeRunsFrom_append_zero {x : Bytes} (h : 0#8 ∉ x) (run rest : Bytes) :
    completeRunsFrom run (x ++ 0#8 :: rest) = (run ++ x) :: completeRuns rest := by
  induction x generalizing run with
  | nil => simp [completeRunsFrom, completeRuns]
  | cons b x ih =>
    simp only [List.mem_cons, not_or] at h
    rw [List.cons_append, completeRunsFrom, if_neg (Ne.symm h.1), ih h.2, List.append_assoc]; rfl

theorem completeRuns_append_zero {x : Bytes} (h : 0#8 ∉ x) (rest : Bytes) :
    completeRuns (x ++ 0#8 :: rest) = x :: completeRuns rest := completeRunsFrom_append_zero h [] rest

/-- More bytes leave the frames that wait where they are. -/
theorem completeRunsFrom_prefix (x y run : Bytes) : completeRunsFrom run x <+: completeRunsFrom run (x ++ y) := by
  induction x generalizing run with
  | nil => exact List.nil_prefix
  | cons b x ih =>
    simp only [List.cons_append, completeRunsFrom]
    split
    · exact List.cons_prefix_cons.mpr ⟨rfl, ih _⟩
    · exact ih _

/-- PROC's TAKE_FRAME is enabled exactly when a frame waits (10_state.md R41). -/
theorem enabled_of_waiting {s : State} (h : completeRuns s.fifo ≠ []) : enabled .proc .takeFrame s = true := by
  cases h0 : first0 s.fifo with
  | none => exact absurd (completeRunsFrom_of_no_zero (first0_eq_none.mp h0) []) h
  | some t => simp [enabled, h0]

/-! ### One operation, one moment -/

/-- An operation that leaves `hist` and `fifo` alone gives no fate and takes no frame. -/
theorem queue_of_frame {s t : State} (hist : t.hist = s.hist) (fifo : t.fifo = s.fifo) :
    ∃ ev, t.hist = s.hist ++ ev ∧ waitingFates s <+: frameFates ev ++ waitingFates t :=
  ⟨[], by simp [hist], by simp [frameFates, waitingFates, fifo]⟩

/-- TAKE_FRAME gives the first waiting frame its fate. -/
theorem takeFrame_queue (s : State) :
    ∃ ev, (takeFrame s).hist = s.hist ++ ev ∧ waitingFates s = frameFates ev ++ waitingFates (takeFrame s) ∧
      (completeRuns s.fifo ≠ [] → frameFates ev ≠ []) := by
  rcases takeFrame_cases s with ⟨h0, h⟩ | ⟨run, rest, h0, hf, h⟩
  · exact ⟨[], by simp [h], by simp [frameFates, waitingFates, h],
      fun hw => absurd (completeRunsFrom_of_no_zero h0 []) hw⟩
  · obtain ⟨ev, he, hn, _⟩ := flowEval_hist (setFifo rest s)
    have hw : waitingFates s = receive run :: (completeRuns rest).map receive := by
      rw [waitingFates, hf, completeRuns_append_zero h0, List.map_cons]
    rcases h with ⟨k, hk, h⟩ | ⟨m, hm, h⟩
    · have hk' : frameFates (ev ++ [.error k]) = [receive run] := by
        rw [frameFates_append, hn, hk]; rcases receive_error hk with rfl | rfl | rfl <;> rfl
      exact ⟨ev ++ [.error k], by simp [h, he], by rw [hw, hk', waitingFates, h]; simp, fun _ => by simp [hk']⟩
    · have hm' : frameFates (ev ++ [.dispatch m]) = [receive run] := by rw [frameFates_append, hn, hm]; rfl
      exact ⟨ev ++ [.dispatch m], by simp [h, he], by rw [hw, hm', waitingFates, h]; simp, fun _ => by simp [hm']⟩

/-- An operation that discards nothing keeps the queue: the frames that waited have their fates among the new events or
still wait, in the same order. -/
theorem effect_queue (i : Instr) (s : State) (hr : i ≠ .reset)
    (ha : ∀ chunk, i = .append chunk → chunk ≠ [] → occ s + chunk.length ≤ s.cfg.capacity) :
    ∃ ev, (effect i s).hist = s.hist ++ ev ∧ waitingFates s <+: frameFates ev ++ waitingFates (effect i s) := by
  cases i with
  | reset => exact absurd rfl hr
  | takeFrame =>
    obtain ⟨ev, h, hw, _⟩ := takeFrame_queue s
    exact ⟨ev, h, hw ▸ List.prefix_refl _⟩
  | append chunk =>
    by_cases hc : chunk = []
    · exact queue_of_frame (by simp [effect, appendChunk, hc]) (by simp [effect, appendChunk, hc])
    · obtain ⟨ev, he, hn, _⟩ := flowEval_hist (setFifo (s.fifo ++ chunk) s)
      have h : effect (.append chunk) s = reply .ok [] (flowEval (setFifo (s.fifo ++ chunk) s)) := by
        rw [effect, appendChunk, if_neg hc, if_neg (Nat.not_lt.mpr (ha chunk rfl hc))]
      refine ⟨ev, by simp [h, he], ?_⟩
      rw [hn, List.nil_append, waitingFates, waitingFates, h]
      simp only [reply_fifo, flowEval_fifo, setFifo_fifo]
      exact (completeRunsFrom_prefix s.fifo chunk []).map receive
  | write id cmd payload =>
    simp only [effect]
    split
    · exact queue_of_frame rfl rfl
    · exact ⟨[.txFrame (wireFrame id cmd payload)], rfl, by simp [frameFates, waitingFates]⟩
  | _ => simp only [effect]; (repeat' split) <;> exact queue_of_frame rfl rfl

/-- Everything a moment that discards nothing can do to the queue: no waiting frame is lost, and PROC's TAKE_FRAME gives
one its fate. -/
theorem moment_queue {issued : Option Issue} {s t : State} (h : moment issued s = .next t)
    (hd : ¬ Discards issued s) :
    ∃ ev, t.hist = s.hist ++ ev ∧ waitingFates s <+: frameFates ev ++ waitingFates t ∧
      (issued = some procTakesFrame → completeRuns s.fifo ≠ [] → frameFates ev ≠ []) := by
  rw [moment] at h
  cases issued with
  | none =>
    rcases step_cases { s with schedule := (none : Option Issue).toList } with
      ⟨_, h'⟩ | ⟨_, _, h'⟩ | ⟨_, u, rest, hs, _⟩
    · rw [h'] at h; cases h
    · rw [h'] at h; cases h
      obtain ⟨ev, a, b⟩ := queue_of_frame (s := s) (t := { s with schedule := [] }) rfl rfl
      exact ⟨ev, a, b, nofun⟩
    · cases hs
  | some u =>
    rcases step_cases { s with schedule := (some u).toList } with ⟨_, h'⟩ | ⟨_, hs, _⟩ | ⟨_, u', rest, hs, hc⟩
    · rw [h'] at h; cases h
    · cases hs
    · cases hs
      rcases hc with ⟨r, hr, h'⟩ | ⟨i, hi, he, h'⟩ | ⟨i, hi, _, h'⟩ <;> rw [h'] at h <;> cases h
      · obtain ⟨ev, a, b⟩ := queue_of_frame (s := s)
          (t := refuse (rejectCode r) { s with schedule := [], issuer := u.agent }) rfl rfl
        refine ⟨ev, a, b, fun hu => ?_⟩
        cases hu; cases hr
      · obtain ⟨ev, a, b⟩ := queue_of_frame (s := s) (t := { s with schedule := [] }) rfl rfl
        refine ⟨ev, a, b, fun hu hw => ?_⟩
        cases hu; cases hi
        rw [show enabled procTakesFrame.agent .takeFrame { s with schedule := (some procTakesFrame).toList } = true from
          enabled_of_waiting hw] at he
        cases he
      · by_cases hu : u = procTakesFrame
        · subst hu; cases hi
          obtain ⟨ev, a, b, c⟩ := takeFrame_queue { s with schedule := [], issuer := procTakesFrame.agent }
          exact ⟨ev, a, by rw [show waitingFates s = _ from b]; exact List.prefix_refl _, fun _ => c⟩
        · obtain ⟨ev, a, b⟩ := effect_queue i { s with schedule := [], issuer := u.agent }
            (fun e => hd ⟨u, rfl, .inl (e ▸ hi)⟩)
            (fun chunk e hne => Nat.not_lt.mp fun hlt => hd ⟨u, rfl, .inr ⟨chunk, e ▸ hi, hne, hlt⟩⟩)
          exact ⟨ev, a, b, fun e => absurd (Option.some.inj e) hu⟩

/-- A moment of an instance leads to a state of an instance. -/
theorem moment_next (issued : Option Issue) {s : State} (h : s.cfg.Legal) :
    ∃ t, moment issued s = .next t ∧ t.cfg.Legal := by
  rcases step_cases { s with schedule := issued.toList } with
    ⟨h', _⟩ | ⟨_, _, h'⟩ | ⟨_, u, rest, _, ⟨_, _, h'⟩ | ⟨_, _, _, h'⟩ | ⟨i, _, _, h'⟩⟩
  · exact absurd h h'
  · exact ⟨_, h', h⟩
  · exact ⟨_, h', h⟩
  · exact ⟨_, h', h⟩
  · exact ⟨_, h', (effect_cfg i _).symm ▸ h⟩

/-! ### Endless runs -/

/-- Every endless schedule has a run from every state of an instance: the block never stops by itself
(60_exceptions.md R290). -/
theorem endless_run_exists (issued : EndlessSchedule) {s : State} (h : s.cfg.Legal) :
    ∃ run, run 0 = s ∧ IsRun issued run := by
  choose next hnext hlegal using fun (n : Nat) (x : { x : State // x.cfg.Legal }) => moment_next (issued n) x.2
  let run (n : Nat) : { x : State // x.cfg.Legal } := Nat.rec ⟨s, h⟩ (fun k x => ⟨next k x, hlegal k x⟩) n
  exact ⟨fun n => (run n).1, rfl, fun n => hnext n (run n)⟩

/-- Without fairness frames may stay untaken (70_reset_and_hazards.md R325): where no agent ever steps, every state of an
instance lasts for ever. -/
theorem idle_run {s : State} (h : s.cfg.Legal) (hs : s.schedule = []) : IsRun (fun _ => none) fun _ => s := by
  intro n
  have hs' : { s with schedule := (none : Option Issue).toList } = s := by rw [Option.toList_none, ← hs]
  rw [moment, hs']
  rcases step_cases s with ⟨h', _⟩ | ⟨_, _, h'⟩ | ⟨_, u, rest, h', _⟩
  · exact absurd h h'
  · exact h'
  · rw [hs] at h'; cases h'

section
variable {issued : EndlessSchedule} {run : Nat → State}

/-- Over moments that discard nothing, the frames that waited have their fates or still wait, in the same order. -/
theorem run_queue (hrun : IsRun issued run) (n : Nat) :
    ∀ k, (∀ m, n ≤ m → m < n + k → ¬ Discards (issued m) (run m)) →
      ∃ ev, (run (n + k)).hist = (run n).hist ++ ev ∧
        waitingFates (run n) <+: frameFates ev ++ waitingFates (run (n + k))
  | 0, _ => queue_of_frame rfl rfl
  | k + 1, hd => by
    obtain ⟨ev, a, b⟩ := run_queue hrun n k fun m h1 h2 => hd m h1 (by omega)
    obtain ⟨ev', a', b', _⟩ := moment_queue (hrun (n + k)) (hd (n + k) (by omega) (by omega))
    refine ⟨ev ++ ev', ?_, ?_⟩
    · rw [← Nat.add_assoc, a', a, List.append_assoc]
    · rw [frameFates_append, List.append_assoc]
      exact b.trans ((List.prefix_append_right_inj _).mpr b')

/-- A weakly fair run in which nothing is ever discarded gives fate after fate, until every frame that waited has its
own. -/
theorem fates_grow (hrun : IsRun issued run) (hfair : ProcWeaklyFair issued run) (n : Nat)
    (hd : ∀ m, n ≤ m → ¬ Discards (issued m) (run m)) (j : Nat) :
    ∃ k ev, (run (n + k)).hist = (run n).hist ++ ev ∧
      waitingFates (run n) <+: frameFates ev ++ waitingFates (run (n + k)) ∧
      min j (waitingFates (run n)).length ≤ (frameFates ev).length := by
  induction j with
  | zero =>
    obtain ⟨ev, a, b⟩ := run_queue hrun n 0 fun m h _ => hd m h
    exact ⟨0, ev, a, b, by omega⟩
  | succ j ih =>
    by_contra hno
    -- no moment has more than `j` fates, so a frame waits at every moment
    have few : ∀ k ev, (run (n + k)).hist = (run n).hist ++ ev →
        waitingFates (run n) <+: frameFates ev ++ waitingFates (run (n + k)) →
        (frameFates ev).length < min (j + 1) (waitingFates (run n)).length :=
      fun k ev a b => Nat.not_le.mp fun hle => hno ⟨k, ev, a, b, hle⟩
    have waits : ∀ m, n ≤ m → completeRuns (run m).fifo ≠ [] := by
      intro m hm hnil
      obtain ⟨k, rfl⟩ := Nat.exists_eq_add_of_le hm
      obtain ⟨ev, a, b⟩ := run_queue hrun n k fun m h _ => hd m h
      have := few k ev a b
      have := b.length_le
      rw [show waitingFates (run (n + k)) = [] by rw [waitingFates, hnil, List.map_nil], List.append_nil] at this
      omega
    -- so PROC takes one after `j` of them have been taken
    obtain ⟨k, ev, a, b, hj⟩ := ih
    obtain ⟨m, hm, hp⟩ := hfair (n + k) fun m hm => enabled_of_waiting (waits m (by omega))
    obtain ⟨d, rfl⟩ := Nat.exists_eq_add_of_le hm
    obtain ⟨ev1, a1, b1⟩ := run_queue hrun (n + k) d fun m h _ => hd m (by omega)
    obtain ⟨ev2, a2, b2, hne⟩ := moment_queue (hrun (n + k + d)) (hd _ (by omega))
    have hpos := List.length_pos_iff.mpr (hne hp (waits _ (by omega)))
    have := few (k + d + 1) (ev ++ ev1 ++ ev2)
      (by rw [show n + (k + d + 1) = n + k + d + 1 by omega, a2, a1, a]; simp)
      (by
        rw [show n + (k + d + 1) = n + k + d + 1 by omega, frameFates_append, frameFates_append]
        simp only [List.append_assoc]
        exact b.trans ((List.prefix_append_right_inj _).mpr (b1.trans ((List.prefix_append_right_inj _).mpr b2))))
    simp only [frameFates_append, List.length_append] at this
    omega

/-- 70_reset_and_hazards.md R325. In a weakly fair run every frame that waits at a moment is eventually taken, in order:
either all of them have their fates at a later moment with nothing discarded between, or a moment comes that overflows
the FIFO or resets the block, and up to it each has its fate or still waits. Nothing is assumed of RX, TX or HOST. -/
theorem waiting_frames_taken (hrun : IsRun issued run) (hfair : ProcWeaklyFair issued run) (n : Nat) :
    ∃ m ev, n ≤ m ∧ (∀ k, n ≤ k → k < m → ¬ Discards (issued k) (run k)) ∧ (run m).hist = (run n).hist ++ ev ∧
      (waitingFates (run n) <+: frameFates ev ∨
        (Discards (issued m) (run m) ∧ waitingFates (run n) <+: frameFates ev ++ waitingFates (run m))) := by
  classical
  by_cases hd : ∃ d, Discards (issued (n + d)) (run (n + d))
  · -- the first moment that discards
    have before : ∀ k, n ≤ k → k < n + Nat.find hd → ¬ Discards (issued k) (run k) := by
      intro k h1 h2
      obtain ⟨d, rfl⟩ := Nat.exists_eq_add_of_le h1
      exact Nat.find_min hd (by omega)
    obtain ⟨ev, a, b⟩ := run_queue hrun n (Nat.find hd) before
    exact ⟨n + Nat.find hd, ev, by omega, before, a, .inr ⟨Nat.find_spec hd, b⟩⟩
  · have never : ∀ m, n ≤ m → ¬ Discards (issued m) (run m) := by
      intro m hm h
      obtain ⟨d, rfl⟩ := Nat.exists_eq_add_of_le hm
      exact hd ⟨d, h⟩
    obtain ⟨k, ev, a, b, hlen⟩ := fates_grow hrun hfair n never (waitingFates (run n)).length
    exact ⟨n + k, ev, by omega, fun m h _ => never m h, a,
      .inl (List.prefix_of_prefix_length_le b (List.prefix_append _ _) (by omega))⟩

end

end Sys2Proof.Machine
end

