-- ==== Sys2Proof/Laws/Layout.lean ====
section
/-! SUPPORT. The Checksum Unit and the Message Layout: the fold over a longer sequence, the header's fields as numbers,
and everything `unpack` can do. -/

namespace Sys2Proof.Machine

open Sys2Proof

/-! ### The fold -/

/-- A fold from another seed is the fold from zero, combined with the seed. -/
theorem foldl_xor (s : Bytes) (a : Byte) : s.foldl (fun c b => c ^^^ b) a = a ^^^ checksum s := by
  induction s generalizing a with
  | nil => simp [checksum]
  | cons b s ih =>
    have e : checksum (b :: s) = (0#8 ^^^ b) ^^^ checksum s := ih (0#8 ^^^ b)
    rw [List.foldl_cons, ih, e]; simp [BitVec.xor_assoc]

/-- `verify` by the trailer and the bytes before it (40_checksum.md R145). -/
theorem verify_concat (s : Bytes) (trailer : Byte) : verify (s ++ [trailer]) = decide (checksum s = trailer) := by
  rw [verify]; simp only [List.getLast?_concat, List.dropLast_concat]

/-! ### The header (30_encoding.md R101) -/

/-- The second header byte as a number. -/
theorem headerByte1_toNat (id : MsgId) (cmd : MsgCmd) :
    (((id.extractLsb' 0 3).setWidth 8 <<< 5) ||| cmd.setWidth 8).toNat = id.toNat % 8 * 32 + cmd.toNat := by
  have h1 := id.isLt
  have h2 := cmd.isLt
  simp [BitVec.extractLsb'_toNat, Nat.shiftLeft_eq]
  have e : id.toNat % 8 * 32 % 256 = (id.toNat % 8) <<< 5 := by rw [Nat.shiftLeft_eq]; omega
  have e2 : cmd.toNat % 256 = cmd.toNat := by omega
  rw [e, e2, ← Nat.shiftLeft_add_eq_or_of_lt (by omega), Nat.shiftLeft_eq]

/-- The identifier of a header as a number. -/
theorem headerId_toNat (b0 b1 : Byte) : (headerId b0 b1).toNat = b0.toNat * 8 + b1.toNat / 32 := by
  have h0 := b0.isLt
  have h1 := b1.isLt
  have : (headerId b0 b1).toNat = (b0.toNat <<< 3 % 2048) ||| (b1.toNat / 32) := by
    simp [headerId, Nat.shiftRight_eq_div_pow, Nat.shiftLeft_eq]
    congr 1; omega
  rw [this, show b0.toNat <<< 3 % 2048 = b0.toNat <<< 3 by rw [Nat.shiftLeft_eq]; omega,
    ← Nat.shiftLeft_add_eq_or_of_lt (by omega), Nat.shiftLeft_eq]

/-- The command of a header as a byte. -/
theorem headerCmd_setWidth (b1 : Byte) : (headerCmd b1).setWidth 8 = b1 &&& 0x1F#8 := by
  revert b1; decide

/-! ### Messages -/

@[simp] theorem pack_length (id : MsgId) (cmd : MsgCmd) (p : Bytes) : (pack id cmd p).length = p.length + 4 := by
  simp [pack, header]

/-- A run of four bytes or more is a header, a body and a trailer. -/
theorem exists_header_of_length {d : Bytes} (h : 4 ≤ d.length) :
    ∃ b0 b1 len body trailer, d = b0 :: b1 :: len :: (body ++ [trailer]) := by
  match d with
  | b0 :: b1 :: len :: x :: y =>
    exact ⟨b0, b1, len, (x :: y).dropLast, (x :: y).getLast (by simp), by rw [List.dropLast_append_getLast]⟩

/-- Everything `unpack` can do with a run of four bytes or more (42_message_layout.md R195). -/
theorem unpack_header (b0 b1 len : Byte) (body : Bytes) (trailer : Byte) :
    unpack (b0 :: b1 :: len :: (body ++ [trailer])) =
      if body.length < len.toNat then .error .truncatedMessage
      else if checksum (b0 :: b1 :: len :: body) = trailer then
        .ok ⟨headerId b0 b1, headerCmd b1, len, body.take len.toNat⟩
      else .error .checksumMismatch := by
  have hv : verify (b0 :: b1 :: len :: (body ++ [trailer])) =
      decide (checksum (b0 :: b1 :: len :: body) = trailer) := verify_concat (b0 :: b1 :: len :: body) trailer
  rw [unpack, if_neg (by simp)]
  simp only [hv, List.length_cons, List.length_append, List.length_nil, List.getD_cons_succ, List.getD_cons_zero,
    decide_eq_true_eq]
  by_cases h : body.length < len.toNat
  · rw [if_pos h, if_pos (by omega)]
  · rw [if_neg h, if_neg (by omega)]
    congr 3
    simp only [List.drop_succ_cons, List.drop_zero]
    rw [List.take_append_of_le_length (by omega)]

/-- The errors of `unpack` are the two of 42_message_layout.md R195. -/
theorem unpack_error {d : Bytes} {k : ErrorKind} (h : unpack d = .error k) :
    k = .truncatedMessage ∨ k = .checksumMismatch := by
  rw [unpack] at h
  split at h
  · cases h; exact .inl rfl
  · dsimp only at h
    split at h
    · cases h; exact .inl rfl
    · split at h
      · cases h
      · cases h; exact .inr rfl

end Sys2Proof.Machine
end

