-- ==== Sys2Proof/Laws/PerInstr.lean ====
section
/-! SUPPORT. The family `DeclaredLength`, one lemma per operation: the transaction of a well-formed command is as long as
its command byte and its length fields say (30_encoding.md R125). -/

namespace Sys2Proof.Laws

open Sys2Proof

/-- `LEN16` counts data that fits. -/
theorem declaredLength_encodeData (c : Byte) (data : Bytes) (h : data.length ≤ 65535)
    (hc : c = 0x01#8 ∨ c = 0x02#8 ∨ c = 0x03#8 ∨ c = 0x04#8 ∨ c = 0x06#8 ∨ c = 0x07#8) :
    declaredLength (encodeData c data) = (encodeData c data).length := by
  have hv : (BitVec.ofNat 16 data.length).toNat = data.length := by simp [BitVec.toNat_ofNat]; omega
  rcases hc with rfl | rfl | rfl | rfl | rfl | rfl <;>
    simp [declaredLength, encodeData, be16, ofBe16_be16, -BitVec.toNat_ofNat, hv] <;> omega

/-- `LEN8` counts a payload that fits. -/
theorem declaredLength_encodeMessage (c : Byte) (id : MsgId) (cmd : MsgCmd) (p : Bytes) (h : p.length ≤ 255)
    (hc : c = 0x05#8 ∨ c = 0x09#8) :
    declaredLength (encodeMessage c id cmd p) = (encodeMessage c id cmd p).length := by
  have hv : (BitVec.ofNat 8 p.length).toNat = p.length := by simp [BitVec.toNat_ofNat]; omega
  rcases hc with rfl | rfl <;> simp [declaredLength, encodeMessage, be16, -BitVec.toNat_ofNat, hv] <;> omega

/-- The family's statement about one command. -/
def DeclaredLength.Statement (i : Instr) : Prop :=
  i.wellFormed = true → declaredLength (encode i) = (encode i).length

theorem DeclaredLength.reset : DeclaredLength.Statement .reset := fun _ => rfl

theorem DeclaredLength.checksum (data : Bytes) : DeclaredLength.Statement (.checksum data) := fun h =>
  declaredLength_encodeData _ _ (of_decide_eq_true h) (by decide)

theorem DeclaredLength.verify (data : Bytes) : DeclaredLength.Statement (.verify data) := fun h =>
  declaredLength_encodeData _ _ (of_decide_eq_true h) (by decide)

theorem DeclaredLength.cobsEncode (data : Bytes) : DeclaredLength.Statement (.cobsEncode data) := fun h =>
  declaredLength_encodeData _ _ (of_decide_eq_true h) (by decide)

theorem DeclaredLength.cobsDecode (data : Bytes) : DeclaredLength.Statement (.cobsDecode data) := fun h =>
  declaredLength_encodeData _ _ (of_decide_eq_true h) (by decide)

theorem DeclaredLength.pack (id : MsgId) (cmd : MsgCmd) (payload : Bytes) :
    DeclaredLength.Statement (.pack id cmd payload) := fun h =>
  declaredLength_encodeMessage _ _ _ _ (of_decide_eq_true h) (by decide)

theorem DeclaredLength.unpack (data : Bytes) : DeclaredLength.Statement (.unpack data) := fun h =>
  declaredLength_encodeData _ _ (of_decide_eq_true h) (by decide)

theorem DeclaredLength.append (chunk : Bytes) : DeclaredLength.Statement (.append chunk) := fun h =>
  declaredLength_encodeData _ _ (of_decide_eq_true h) (by decide)

theorem DeclaredLength.takeFrame : DeclaredLength.Statement .takeFrame := fun _ => rfl

theorem DeclaredLength.write (id : MsgId) (cmd : MsgCmd) (payload : Bytes) :
    DeclaredLength.Statement (.write id cmd payload) := fun h =>
  declaredLength_encodeMessage _ _ _ _ (of_decide_eq_true h) (by decide)

theorem DeclaredLength.readStatus (reg : Byte) : DeclaredLength.Statement (.readStatus reg) := fun _ => rfl

end Sys2Proof.Laws
end

