-- ==== Sys2Proof/Tests/Slice0.lean ====
section
/-! SUPPORT. Small tests. Expected values come from spec/95_test_vectors.md and the examples of the rules, or are worked
out by hand from the rules; the row is named at each test. The second half holds the witnesses: for each statement of
Certificates/Slice0/Obligations.lean that has hypotheses, concrete values that meet them, clause by clause, at the
boundary of the range. -/

/- One theorem after another: elaborated side by side, so many small ones hold a thread each. -/
set_option Elab.async false

namespace Sys2Proof.Tests

open Sys2Proof Sys2Proof.Machine

/-! ### Helpers -/

/-- Bytes written as numbers. -/
def bytes (l : List Nat) : Bytes := l.map (BitVec.ofNat 8)

/-- The small configuration of programs P4 and P5. -/
def small : Cfg := ⟨16, 12, 4, 255⟩

/-- A block with these bytes waiting and this flow state. -/
def holding (c : Cfg) (flow : Flow) (fifo : List Nat) : State :=
  { State.powerOn c with fifo := bytes fifo, flow := flow, fcLine := flow.level }

/-- What is asked of the state an outcome gives. -/
def after {α : Type} (o : Out) (f : State → α) : Option α :=
  match o with
  | .next s => some (f s)
  | .fault _ => none
  | .refused _ => none

/-- The last result, as the bytes of 30_encoding.md R119. -/
def result (s : State) : List Nat := ((s.replies.getLast?.map Reply.bytes).getD []).map BitVec.toNat

/-- A fresh block that HOST gives one transaction. -/
def issue (c : Cfg) (transaction : List Nat) : Out :=
  step { State.powerOn c with schedule := [⟨.host, bytes transaction⟩] }

/-- The result of one transaction on a fresh block with the default configuration. -/
def answer (transaction : List Nat) : Option (List Nat) := after (issue Cfg.default transaction) result

/-! ### WellFormed: an ill-formed term for each check -/

theorem test_wellFormed_data (mk : Bytes → Instr)
    (h : mk ∈ [Instr.checksum, Instr.verify, Instr.cobsEncode, Instr.cobsDecode, Instr.unpack, Instr.append]) :
    (mk (List.replicate 65535 0x00#8)).wellFormed = true ∧ (mk (List.replicate 65536 0x00#8)).wellFormed = false := by
  simp only [List.mem_cons, List.not_mem_nil, or_false] at h
  rcases h with rfl | rfl | rfl | rfl | rfl | rfl <;>
    simp only [Instr.wellFormed, dataFits, List.length_replicate] <;> decide

theorem test_wellFormed_payload :
    (Instr.pack 0#11 0#5 (List.replicate 255 0x00#8)).wellFormed = true ∧
    (Instr.pack 0#11 0#5 (List.replicate 256 0x00#8)).wellFormed = false ∧
    (Instr.write 0#11 0#5 (List.replicate 255 0x00#8)).wellFormed = true ∧
    (Instr.write 0#11 0#5 (List.replicate 256 0x00#8)).wellFormed = false := by
  simp only [Instr.wellFormed, payloadFits, List.length_replicate]; decide

theorem test_wellFormed_register :
    (Instr.readStatus 0x09#8).wellFormed = true ∧ (Instr.readStatus 0x0A#8).wellFormed = false := by decide

/-! ### Decoding: words written out from 30_encoding.md R112 to R118 -/

theorem test_decode_reset : decode (bytes [0x00]) = .ok .reset := by decide
theorem test_decode_checksum :
    decode (bytes [0x01, 0x00, 0x03, 0x01, 0x02, 0x03]) = .ok (.checksum (bytes [0x01, 0x02, 0x03])) := by decide
theorem test_decode_verify : decode (bytes [0x02, 0x00, 0x01, 0x05]) = .ok (.verify (bytes [0x05])) := by decide
theorem test_decode_cobsEncode :
    decode (bytes [0x03, 0x00, 0x04, 0x11, 0x22, 0x00, 0x33]) = .ok (.cobsEncode (bytes [0x11, 0x22, 0x00, 0x33])) := by
  decide
theorem test_decode_cobsDecode :
    decode (bytes [0x04, 0x00, 0x02, 0x01, 0x00]) = .ok (.cobsDecode (bytes [0x01, 0x00])) := by decide
theorem test_decode_pack : decode (bytes [0x05, 0x07, 0xFF, 0x1F, 0x00]) = .ok (.pack 2047#11 31#5 []) := by decide
theorem test_decode_unpack :
    decode (bytes [0x06, 0x00, 0x03, 0x00, 0x00, 0x00]) = .ok (.unpack (bytes [0x00, 0x00, 0x00])) := by decide
/-- The example of 30_encoding.md R126. -/
theorem test_decode_append :
    decode (bytes [0x07, 0x00, 0x02, 0x01, 0x07]) = .ok (.append (bytes [0x01, 0x07])) := by decide
theorem test_decode_takeFrame : decode (bytes [0x08]) = .ok .takeFrame := by decide
/-- The example of 30_encoding.md R126. -/
theorem test_decode_write :
    decode (bytes [0x09, 0x00, 0x01, 0x14, 0x03, 0x01, 0x02, 0x03]) =
      .ok (.write 1#11 20#5 (bytes [0x01, 0x02, 0x03])) := by decide
theorem test_decode_readStatus : decode (bytes [0x0A, 0x09]) = .ok (.readStatus 0x09#8) := by decide

/-- `LEN16` is big-endian (20_memory.md R74): 0x0100 is 256 bytes. -/
theorem test_decode_len16_high_byte :
    decode (bytes [0x07, 0x01, 0x00] ++ List.replicate 256 0x55#8) = .ok (.append (List.replicate 256 0x55#8)) := by
  decide +kernel

/-- V-ILLEGAL, rows 1 to 17. -/
theorem test_illegal :
    ([[0x0B], [0x0F], [0x10], [0xFF, 0x00]].map answer = List.replicate 4 (some [0x07])) ∧
    ([[], [0x00, 0x00], [0x08, 0x01], [0x07, 0x00, 0x05, 0x01, 0x02], [0x07, 0x00, 0x01, 0x01, 0x02], [0x07, 0x00],
      [0x09, 0x08, 0x00, 0x14, 0x00], [0x09, 0x00, 0x01, 0x20, 0x00], [0x09, 0x08, 0x00, 0x14, 0x02, 0x01],
      [0x05, 0x00, 0x01, 0x14, 0x02, 0x01, 0x02, 0x03], [0x0A, 0x0A], [0x0A, 0xFF], [0x0A]].map answer =
        List.replicate 13 (some [0x08])) := by decide +kernel

/-- Reserved bits are judged after the length (60_exceptions.md R292 item 1). -/
theorem test_reject_order :
    decode (bytes [0x09, 0x08, 0x00, 0x14, 0x02, 0x01]) = .error .lengthMismatch ∧
    decode (bytes [0x09, 0x08, 0x00, 0x14, 0x00]) = .error .reservedBits ∧
    decode (bytes [0x0A, 0x0A]) = .error .reservedRegister ∧
    decode (bytes [0x10, 0x00]) = .error .reservedCommand ∧ decode [] = .error .emptyTransaction := by decide

/-! ### The opcode table's words -/

/-- One byte of the table, its other bytes zero, is each row's instruction, and the next step runs it. -/
theorem test_table_words :
    ((List.range 11).map fun k => decodeTableWord 8 k) =
      [some .reset, some (.checksum []), some (.verify []), some (.cobsEncode []), some (.cobsDecode []),
        some (.pack 0#11 0#5 []), some (.unpack []), some (.append []), some .takeFrame, some (.write 0#11 0#5 []),
        some (.readStatus 0x00#8)] ∧
    decodeTableWord 8 0x0B = none := by decide

theorem test_withFetchWord_runs :
    after (step (State.reset.withFetchWord 8 0x00)) (·.hist) = some [.flowSet true] ∧
    after (step (State.reset.withFetchWord 8 0x03)) result = some [0x00, 0x00, 0x02, 0x01, 0x00] ∧
    after (step (State.reset.withFetchWord 8 0x0A)) result = some [0x00, 0x00, 0x00, 0x00, 0x00] := by decide

/-! ### Checksum Unit -/

/-- 40_checksum.md R141's example, and the empty input of V-CHK. -/
theorem test_checksum :
    answer [0x01, 0x00, 0x06, 0x00, 0x34, 0x03, 0x01, 0x02, 0x03] = some [0x00, 0x37] ∧
    answer [0x01, 0x00, 0x00] = some [0x00, 0x00] := by decide +kernel

/-- 40_checksum.md R146's examples, and V-CHK rows 1 to 3. -/
theorem test_verify :
    answer [0x02, 0x00, 0x07, 0x00, 0x34, 0x03, 0x01, 0x02, 0x03, 0x37] = some [0x00, 0x01] ∧
    answer [0x02, 0x00, 0x07, 0x00, 0x34, 0x03, 0x01, 0x02, 0x03, 0x36] = some [0x00, 0x00] ∧
    answer [0x02, 0x00, 0x00] = some [0x00, 0x00] ∧ answer [0x02, 0x00, 0x01, 0x00] = some [0x00, 0x01] ∧
    answer [0x02, 0x00, 0x01, 0x05] = some [0x00, 0x00] := by decide +kernel

/-! ### Frame Codec -/

/-- 41_frame_codec.md R163's example, and V-CODEC rows 1 to 7. -/
theorem test_cobsEncode :
    answer [0x03, 0x00, 0x04, 0x11, 0x22, 0x00, 0x33] =
      some [0x00, 0x00, 0x06, 0x03, 0x11, 0x22, 0x02, 0x33, 0x00] ∧
    ([[], [0x00], [0x00, 0x00], [0x11, 0x00, 0x00, 0x00], [0x00, 0x11]].map fun x => cobsFrame (bytes x)) =
      [[0x01, 0x00], [0x01, 0x01, 0x00], [0x01, 0x01, 0x01, 0x00], [0x02, 0x11, 0x01, 0x01, 0x01, 0x00],
        [0x01, 0x02, 0x11, 0x00]].map bytes := by decide +kernel

/-- V-CODEC encoder rows 8 to 13: where the group is full. -/
theorem test_cobsEncode_full_groups :
    let n (k : Nat) := List.replicate k 0x11#8
    cobsFrame (n 253) = 0xFE#8 :: n 253 ++ bytes [0x00] ∧
    cobsFrame (n 254) = 0xFF#8 :: n 254 ++ bytes [0x00] ∧
    cobsFrame (n 255) = 0xFF#8 :: n 254 ++ bytes [0x02, 0x11, 0x00] ∧
    cobsFrame (n 254 ++ bytes [0x00]) = 0xFF#8 :: n 254 ++ bytes [0x01, 0x01, 0x00] ∧
    cobsFrame (n 508) = 0xFF#8 :: n 254 ++ 0xFF#8 :: n 254 ++ bytes [0x00] ∧
    cobsFrame (n 253 ++ bytes [0x00, 0x22]) = 0xFE#8 :: n 253 ++ bytes [0x02, 0x22, 0x00] := by decide +kernel

/-- 41_frame_codec.md R171's example and the transactions of V-CODEC. -/
theorem test_cobsDecode :
    answer [0x04, 0x00, 0x05, 0x02, 0x11, 0x00, 0x05, 0x00] = some [0x00, 0x00, 0x03, 0x00, 0x01, 0x11] ∧
    answer [0x04, 0x00, 0x02, 0x02, 0x11] = some [0x06, 0x00, 0x00] ∧
    answer [0x04, 0x00, 0x01, 0x00] = some [0x02, 0x00, 0x01] ∧
    answer [0x04, 0x00, 0x02, 0x02, 0x00] = some [0x02, 0x00, 0x02] ∧
    answer [0x04, 0x00, 0x02, 0x01, 0x00] = some [0x00, 0x00, 0x02, 0x00, 0x00] := by decide +kernel

/-- V-CODEC run decoder rows 1 to 15. -/
theorem test_cobsDecodeRun :
    let n (k : Nat) := List.replicate k 0x11#8
    ([[], [0x02], [0x03, 0x11], [0x05, 0x11, 0x22], [0xFF], [0x02, 0x11, 0x05, 0x22]].map fun f =>
      cobsDecodeRun (bytes f)) = List.replicate 6 none ∧
    ([[0x01], [0x02, 0x11], [0x01, 0x01], [0x02, 0x11, 0x01], [0x03, 0x11, 0x22, 0x02, 0x33]].map fun f =>
      cobsDecodeRun (bytes f)) =
        ([[], [0x11], [0x00], [0x11, 0x00], [0x11, 0x22, 0x00, 0x33]].map fun x => some (bytes x)) ∧
    cobsDecodeRun (List.replicate 255 0x01#8) = some (List.replicate 254 0x00#8) ∧
    cobsDecodeRun (0xFF#8 :: n 254) = some (n 254) ∧ cobsDecodeRun (0xFF#8 :: n 254 ++ bytes [0x01]) = some (n 254) ∧
    cobsDecodeRun (0xFF#8 :: n 254 ++ bytes [0x02, 0x22]) = some (n 254 ++ bytes [0x22]) := by decide +kernel

/-! ### Message Layout -/

/-- V-LAYOUT pack rows 1 to 5 and 10. -/
theorem test_pack :
    pack 1#11 20#5 (bytes [0x01, 0x02, 0x03]) = bytes [0x00, 0x34, 0x03, 0x01, 0x02, 0x03, 0x37] ∧
    pack 0#11 0#5 [] = bytes [0x00, 0x00, 0x00, 0x00] ∧ pack 2047#11 31#5 [] = bytes [0xFF, 0xFF, 0x00, 0x00] ∧
    pack 1024#11 3#5 (bytes [0x00]) = bytes [0x80, 0x03, 0x01, 0x00, 0x82] ∧
    pack 291#11 24#5 (bytes [0xAA, 0x55]) = bytes [0x24, 0x78, 0x02, 0xAA, 0x55, 0xA1] ∧
    pack 8#11 23#5 (bytes [0x00, 0x00, 0x00]) = bytes [0x01, 0x17, 0x03, 0x00, 0x00, 0x00, 0x15] := by decide

/-- V-LAYOUT's PACK transactions, the last with `MAX_PAYLOAD = 2`. -/
theorem test_pack_result :
    answer [0x05, 0x00, 0x01, 0x14, 0x03, 0x01, 0x02, 0x03] =
      some [0x00, 0x00, 0x07, 0x00, 0x34, 0x03, 0x01, 0x02, 0x03, 0x37] ∧
    after (issue ⟨1024, 768, 256, 2⟩ [0x05, 0x00, 0x01, 0x14, 0x03, 0x01, 0x02, 0x03]) result = some [0x05] := by
  decide +kernel

/-- V-LAYOUT's UNPACK transactions. -/
theorem test_unpack_result :
    answer [0x06, 0x00, 0x07, 0x00, 0x34, 0x03, 0x01, 0x02, 0x03, 0x37] =
      some [0x00, 0x00, 0x01, 0x14, 0x03, 0x01, 0x02, 0x03] ∧
    answer [0x06, 0x00, 0x03, 0x00, 0x00, 0x00] = some [0x03] ∧
    answer [0x06, 0x00, 0x07, 0x00, 0x34, 0x03, 0x01, 0x02, 0x03, 0x36] = some [0x01] := by decide +kernel

/-- V-LAYOUT unpack rows 6, 8, 9, 10 and 12: truncation first, and excess bytes. -/
theorem test_unpack_lengths :
    ([[0x00, 0x34, 0x03, 0x01, 0x02, 0x37], [0x00, 0x34, 0x02, 0x01, 0x02, 0x03, 0x37],
      [0x00, 0x34, 0x03, 0x01, 0x02, 0x03, 0x09, 0x3E], [0x00, 0x34, 0x07, 0x01, 0x02, 0x03, 0x37]].map fun m =>
        after (exec (.unpack (bytes m)) State.reset) result) =
      [some [0x03], some [0x01], some [0x00, 0x00, 0x01, 0x14, 0x03, 0x01, 0x02, 0x03], some [0x03]] ∧
    after (exec (.unpack (List.replicate 254 0x00#8)) State.reset) result = some [0x00, 0x00, 0x00, 0x00, 0x00] := by
  decide +kernel

/-- V-LAYOUT-CMD. -/
theorem test_header_fields :
    ([0x00, 0x1F, 0x20, 0x34, 0x54, 0x74, 0xE0, 0xFF].map fun b => (headerCmd (BitVec.ofNat 8 b)).toNat) =
      [0, 31, 0, 20, 20, 20, 0, 31] ∧
    ([0x00, 0x1F, 0x20, 0x34, 0x54, 0x74, 0xE0, 0xFF].map fun b => (headerId 0x00#8 (BitVec.ofNat 8 b)).toNat) =
      [0, 0, 1, 1, 2, 3, 7, 7] := by decide

/-! ### Intake -/

/-- V-INTAKE rows 1 and 2 in small: exactly full, and one byte too many while Paused. -/
theorem test_append_capacity :
    after (exec (.append (bytes [0x55, 0x55])) (holding small .paused (List.replicate 14 0x55)))
      (fun s => (occ s, s.flow, s.hist, result s)) = some (16, .paused, [], [0x00]) ∧
    after (exec (.append (bytes [0x55, 0x55, 0x55])) (holding small .paused (List.replicate 14 0x55)))
      (fun s => (occ s, s.flow, s.hist, result s)) =
      some (0, .flowing, [.error .bufferOverflow, .flowSet true], [0x04]) := by decide +kernel

/-- V-INTAKE rows 4, 5 and 6 in small: nothing appended, `HW` reached, `HW − 1`. -/
theorem test_append_watermark :
    after (exec (.append []) (holding small .flowing [0x55])) (fun s => (occ s, s.hist, result s)) = some (1, [], [0x00]) ∧
    after (exec (.append (bytes [0x55])) (holding small .flowing (List.replicate 11 0x55)))
      (fun s => (s.flow, s.fcLine, s.hist)) = some (.paused, false, [.flowSet false]) ∧
    after (exec (.append (bytes [0x55])) (holding small .flowing (List.replicate 10 0x55)))
      (fun s => (s.flow, s.fcLine, s.hist)) = some (.flowing, true, []) := by decide +kernel

/-- 43_intake_flow.md R220's example, and V-INTAKE rows 11, 12, 16 and 17. -/
theorem test_takeFrame_fates :
    after (exec .takeFrame (holding Cfg.default .flowing [0x01, 0x07, 0x34, 0x03, 0x01, 0x02, 0x03, 0x37, 0x00]))
      (fun s => (s.fifo, s.hist)) = some ([], [.dispatch ⟨1#11, 20#5, 0x03#8, bytes [0x01, 0x02, 0x03]⟩]) ∧
    ([[0x00, 0x01, 0x00], [0x01, 0x05, 0x34], [0x02, 0x11, 0x01, 0x01, 0x01, 0x00],
      [0x05, 0x01, 0x34, 0x05, 0x31, 0x00]].map fun b =>
        after (exec .takeFrame (holding Cfg.default .flowing b)) fun s => (occ s, s.hist, result s)) =
      [some (2, [.error .frameCorrupt], [0x02]), some (3, [], [0x06]), some (0, [.error .checksumMismatch], [0x01]),
        some (0, [.error .truncatedMessage], [0x03])] := by decide +kernel

/-- V-INTAKE rows 7 to 9 in small: drained to `LW`, and to `LW + 1`; the line changes before the frame's event. -/
theorem test_takeFrame_resumes :
    after (exec .takeFrame (holding small .paused (List.replicate 7 0x55 ++ [0x00] ++ List.replicate 4 0x55)))
      (fun s => (occ s, s.flow, s.hist)) = some (4, .flowing, [.flowSet true, .error .frameCorrupt]) ∧
    after (exec .takeFrame (holding small .paused (List.replicate 6 0x55 ++ [0x00] ++ List.replicate 5 0x55)))
      (fun s => (occ s, s.flow, s.hist)) = some (5, .paused, [.error .frameCorrupt]) := by decide +kernel

/-! ### Transmit and control -/

/-- V-TX row 1, and row 8 with `MAX_PAYLOAD = 2`. -/
theorem test_write :
    after (issue Cfg.default [0x09, 0x00, 0x01, 0x14, 0x03, 0x01, 0x02, 0x03]) (fun s => (s.tx, s.hist, result s)) =
      some (bytes [0x01, 0x07, 0x34, 0x03, 0x01, 0x02, 0x03, 0x37, 0x00],
        [.txFrame (bytes [0x01, 0x07, 0x34, 0x03, 0x01, 0x02, 0x03, 0x37, 0x00])], [0x00]) ∧
    after (issue ⟨1024, 768, 256, 2⟩ [0x09, 0x00, 0x01, 0x14, 0x03, 0x01, 0x02, 0x03])
      (fun s => (s.tx, s.hist, result s)) = some ([], [], [0x05]) := by decide +kernel

/-- V-TX rows 5 to 7: the smallest frame with a full group, the longest frame, and one with a zero at the cap. -/
theorem test_write_long_frames :
    wireFrame 9#11 20#5 (List.replicate 250 0x11#8) =
      bytes [0xFF, 0x01, 0x34, 0xFA] ++ List.replicate 250 0x11#8 ++ bytes [0xCF, 0x00] ∧
    wireFrame 9#11 20#5 (List.replicate 255 0x11#8) =
      bytes [0xFF, 0x01, 0x34, 0xFF] ++ List.replicate 251 0x11#8 ++
        bytes [0x06, 0x11, 0x11, 0x11, 0x11, 0xDB, 0x00] ∧
    wireFrame 1#11 20#5 (List.replicate 249 0x11#8 ++ bytes [0x00]) =
      bytes [0x01, 0xFC, 0x34, 0xFA] ++ List.replicate 249 0x11#8 ++ bytes [0x02, 0xDF, 0x00] := by decide +kernel

/-- 44_transmit_control.md R262's example, in small. -/
theorem test_reset :
    after (exec .reset { holding small .paused [0x55, 0x55, 0x00] with cnt := ⟨0#32, 3#32, 0#32, 0#32⟩ })
      (fun s => (s.fifo, s.flow, s.cnt, s.hist)) =
      some ([], .flowing, ⟨0#32, 0#32, 0#32, 0#32⟩, [.flowSet true]) := by decide +kernel

/-- V-CTRL rows 1, 2, 6 to 9 and 11, and the registers that are reserved. -/
theorem test_readStatus :
    ([0x00, 0x01, 0x06, 0x07, 0x08, 0x09, 0x0A, 0xFF].map fun r => answer [0x0A, r]) =
      [[0x00, 0x00, 0x00, 0x00, 0x00], [0x00, 0x00, 0x00, 0x00, 0x02], [0x00, 0x00, 0x00, 0x04, 0x00],
        [0x00, 0x00, 0x00, 0x03, 0x00], [0x00, 0x00, 0x00, 0x01, 0x00], [0x00, 0x00, 0x00, 0x00, 0xFF], [0x08],
        [0x08]].map some ∧
    after (exec (.readStatus 0x01#8) (holding small .paused (List.replicate 12 0x55))) result =
      some [0x00, 0x00, 0x00, 0x00, 0x01] := by decide +kernel

/-- The four counters are registers 0x02 to 0x05, in the order of 30_encoding.md R122. -/
theorem test_readStatus_counters :
    ([0x02, 0x03, 0x04, 0x05].map fun r =>
      after (exec (.readStatus (BitVec.ofNat 8 r))
        { State.reset with cnt := ⟨0x01020304#32, 2#32, 3#32, 0xFFFFFFFF#32⟩ }) result) =
      [[0x00, 0x01, 0x02, 0x03, 0x04], [0x00, 0x00, 0x00, 0x00, 0x02], [0x00, 0x00, 0x00, 0x00, 0x03],
        [0x00, 0xFF, 0xFF, 0xFF, 0xFF]].map some := by decide +kernel

/-- A counter wraps and nothing else happens (60_exceptions.md R291). -/
theorem test_counter_wraps :
    after (exec .takeFrame { holding small .flowing [0x00] with cnt := ⟨0#32, 0xFFFFFFFF#32, 0#32, 7#32⟩ })
      (fun s => (s.cnt, s.hist)) = some (⟨0#32, 0#32, 0#32, 7#32⟩, [.error .frameCorrupt]) := by decide +kernel

/-! ### Script text (30_encoding.md R126, R127) -/

/-- The examples of 30_encoding.md R126, a comment, a repeat, a register's name, and text that is no line. -/
theorem test_script_text :
    assembleLine "APPEND [01 07]".toList = some [bytes [0x07, 0x00, 0x02, 0x01, 0x07]] ∧
    assembleLine "WRITE 1, 20, [01 02 03] ; as in P1".toList =
      some [bytes [0x09, 0x00, 0x01, 0x14, 0x03, 0x01, 0x02, 0x03]] ∧
    assembleLine "APPEND [55*3 00]".toList = some [bytes [0x07, 0x00, 0x04, 0x55, 0x55, 0x55, 0x00]] ∧
    assembleLine "READ_STATUS CNT_BUFFER_OVERFLOW".toList = some [bytes [0x0A, 0x05]] ∧
    assembleLine "PACK 0x7FF, 0x1F, []".toList = some [bytes [0x05, 0x07, 0xFF, 0x1F, 0x00]] ∧
    assembleLine "; only a comment".toList = some [] ∧ assembleLine "PACK 2048, 0, []".toList = none ∧
    assembleLine "APPEND [fF 0g]".toList = none ∧ assembleLine "APPEND [fF]".toList = some [bytes [0x07, 0x00, 0x01, 0xFF]] ∧
    assembleLine "JUMP 3".toList = none := by decide +kernel

/-- The expansions of 30_encoding.md R127, the wire frame that of 44_transmit_control.md R256. -/
theorem test_pseudo_operations :
    fillScript 3 0x55#8 = [.append (bytes [0x55, 0x55, 0x55])] ∧
    loopbackScript 1#11 20#5 (bytes [0x01, 0x02, 0x03]) =
      [.write 1#11 20#5 (bytes [0x01, 0x02, 0x03]),
        .append (bytes [0x01, 0x07, 0x34, 0x03, 0x01, 0x02, 0x03, 0x37, 0x00])] ∧
    drainScript (holding small .flowing [0x00, 0x01, 0x00]) = [.takeFrame, .takeFrame, .takeFrame] := by decide +kernel

/-- FILL of one byte more than `LEN16` counts (log entry 18): the field wraps to 0, and the transaction is refused. -/
theorem test_fill_too_long (b : Byte) :
    (encode (.append (List.replicate 65536 b))).take 3 = bytes [0x07, 0x00, 0x00] ∧
    decode (encode (.append (List.replicate 65536 b))) = .error .lengthMismatch := by
  simp only [encode, encodeData, List.length_replicate]
  exact ⟨rfl, rfl⟩

/-! ## Witnesses -/

/-- `c` with this schedule. -/
def scheduled (s : State) (issues : List (Agent × List Nat)) : State :=
  { s with schedule := issues.map fun p => ⟨p.1, bytes p.2⟩ }

/-- Whether an outcome is a next state. -/
def isNext (o : Out) : Bool := (after o fun _ => ()).isSome

theorem next_of_isNext {o : Out} (h : isNext o = true) : ∃ t, o = .next t := by
  cases o with
  | next t => exact ⟨t, rfl⟩
  | fault r => cases h
  | refused r => cases h

/-! ### Configuration, power-on, reset -/

/-- PowerOnStateIsResetState, PowerOnMeetsInvariant, EveryRunMeetsInvariant: the smallest and the largest legal records. -/
theorem test_witness_legal : (Cfg.mk 1 1 0 0).Legal ∧ (Cfg.mk 4294967295 4294967295 4294967294 255).Legal ∧
    Cfg.default.Legal ∧ small.Legal := by decide

/-- ConfigurationDefaultsAndLegalValues, IllegalConfigurationRefused: each constraint broken alone, by one. -/
theorem test_witness_illegal :
    ¬ (Cfg.mk 0 1 0 0).Legal ∧ ¬ (Cfg.mk 4294967296 2 1 0).Legal ∧ ¬ (Cfg.mk 4 2 2 0).Legal ∧ ¬ (Cfg.mk 4 5 2 0).Legal ∧
    ¬ (Cfg.mk 4 3 2 256).Legal := by decide

/-- Such a record has no instance (00_scope.md R8). -/
theorem test_illegal_configuration :
    exec .takeFrame (State.powerOn ⟨4, 5, 2, 0⟩) = .refused .illegalConfig := rfl

/-- ResetRestoresInitialState, ResetTwiceIsResetOnce: from a paused block with counts. -/
theorem test_witness_ResetTwiceIsResetOnce : ∃ t u,
    exec .reset { holding small .paused (List.replicate 12 0x55) with cnt := ⟨1#32, 2#32, 3#32, 4#32⟩ } = .next t ∧
    exec .reset t = .next u := ⟨_, _, rfl, rfl⟩

/-! ### Checksum Unit (ChecksumReturnsXorFold and VerifyComparesTrailer ask only for a legal configuration) -/

theorem test_witness_ChecksumSeesSingleBitFlip :
    (bytes [0x00, 0x34, 0x03])[2]? = some 0x03#8 ∧ (7 : Nat) < 8 ∧
    checksum ((bytes [0x00, 0x34, 0x03]).set 2 (0x03#8 ^^^ (1#8 <<< 7))) = 0xB7#8 ∧
    (bytes [0x00, 0x34, 0x03])[0]? = some 0x00#8 ∧ (0 : Nat) ≠ 2 := by decide

theorem test_witness_VerifyIffFoldIsZero :
    bytes [0x05] ≠ [] ∧ verify (bytes [0xA5, 0x5A, 0xFF]) = true ∧
    (bytes [0xA5, 0x5A, 0xFF])[2]? = some 0xFF#8 ∧ (7 : Nat) < 8 := by decide

/-! ### Frame Codec -/

theorem test_witness_CobsEncodeReturnsFrame :
    (cobsGroups (List.replicate 254 0x11#8) ++ [0x00#8]).length ≤ 65535 ∧ State.reset.cfg.Legal := by decide +kernel

/-- The upper bound of EncoderOutputShape's last clause, at one full group and one byte beyond. -/
theorem test_witness_EncoderOutputShape :
    0x00#8 ∉ List.replicate 254 0x11#8 ∧ (cobsGroups (List.replicate 254 0x11#8)).length = 255 ∧
    0x00#8 ∉ List.replicate 255 0x11#8 ∧ (cobsGroups (List.replicate 255 0x11#8)).length = 257 := by decide +kernel

/-- The four cases: past the end by one, exactly at the end, an implied 0x00 after a code 0xFE, none after 0xFF. -/
theorem test_witness_RunDecoderFollowsPseudocode :
    (0x00#8 ∉ bytes [0x03, 0x11] ∧ (bytes [0x03, 0x11]).length < 3) ∧
    (0x00#8 ∉ bytes [0x02, 0x11] ∧ (bytes [0x02, 0x11]).length = 2) ∧
    (0x00#8 ∉ 0xFE#8 :: List.replicate 254 0x01#8 ∧ (0xFE#8 :: List.replicate 254 0x01#8).length = 255) ∧
    (0x00#8 ∉ 0xFF#8 :: List.replicate 255 0x01#8 ∧ (0xFF#8 :: List.replicate 255 0x01#8).length = 256) := by
  decide +kernel

theorem test_witness_CorruptExactlyWhenGroupOverrunsOrEmpty :
    0x00#8 ∉ ([] : Bytes) ∧ 0x00#8 ∉ bytes [0x02, 0x11, 0x02] ∧ CodeAt (bytes [0x02, 0x11, 0x02]) 2 ∧
    (bytes [0x02, 0x11, 0x02])[2]? = some 0x02#8 ∧ (bytes [0x02, 0x11, 0x02]).length < 2 + 2 ∧
    cobsDecodeRun (bytes [0x02, 0x11, 0x02]) = none ∧ cobsDecodeRun (bytes [0x02, 0x11, 0x01]) ≠ none :=
  ⟨by decide, by decide, CodeAt.next 0 0x02#8 (.first (by decide)) (by decide) (by decide), by decide, by decide,
    by decide, by decide⟩

theorem test_witness_CobsDecodeReturnsRun :
    0x00#8 ∉ bytes [0x02, 0x11] ∧
    (0x00#8 ∉ ([] : Bytes) ∧ (([] : Bytes) ++ 0x00#8 :: bytes [0x05]).length ≤ 65535 ∧ cobsDecodeRun [] = none) ∧
    (0x00#8 ∉ bytes [0x02, 0x11] ∧ (bytes [0x02, 0x11] ++ 0x00#8 :: bytes [0x05, 0x00]).length ≤ 65535 ∧
      cobsDecodeRun (bytes [0x02, 0x11]) = some (bytes [0x11])) := by decide

theorem test_witness_DecodeOfEncodeIsIdentity :
    (cobsGroups (bytes [0x11, 0x22, 0x00, 0x33])).length + 1 ≤ 65535 ∧ State.reset.cfg.Legal := by decide

/-- The run the encoder never produces (41_frame_codec.md R174), and the encoder's own. -/
theorem test_witness_ValidRunIsEncodingUpToTrailingGroup :
    let x := List.replicate 254 0x11#8
    0x00#8 ∉ 0xFF#8 :: x ++ [0x01#8] ∧ cobsDecodeRun (0xFF#8 :: x ++ [0x01#8]) = some x ∧
    0xFF#8 :: x ++ [0x01#8] = cobsGroups x ++ [0x01#8] ∧ (partialFrame x).length = 254 ∧
    cobsDecodeRun (bytes [0x01]) = some [] ∧ bytes [0x01] = cobsGroups [] := by decide +kernel

/-! ### Message Layout -/

/-- PackedMessageLayout, UnpackOfPackIsMessage, WireFrameLength: the longest payload, and both sides of 249. -/
theorem test_witness_payload_lengths :
    (List.replicate 255 0x11#8).length ≤ 255 ∧ (wireFrame 9#11 20#5 (List.replicate 255 0x11#8)).length = 262 ∧
    (List.replicate 249 0x11#8).length ≤ 249 ∧ (wireFrame 9#11 20#5 (List.replicate 249 0x11#8)).length = 255 ∧
    (wireFrame 9#11 20#5 []).length = 6 := by decide +kernel

/-- PackReturnsMessageRun, WriteTransmitsFrame: a payload of exactly `MAX_PAYLOAD` bytes, and one byte more. -/
theorem test_witness_max_payload :
    (Cfg.mk 16 12 4 2).Legal ∧ ¬ (Cfg.mk 16 12 4 2).maxPayload < (bytes [0x01, 0x02]).length ∧
    (Cfg.mk 16 12 4 2).maxPayload < (bytes [0x01, 0x02, 0x03]).length := by decide

theorem test_witness_UnpackedFieldsOfHeader :
    unpack (bytes [0xFF, 0xFF, 0x00, 0x00]) = .ok ⟨2047#11, 31#5, 0x00#8, []⟩ := by decide

/-- Three bytes and four; a body one byte short of the length byte, and one exactly as long with a wrong and a right
trailer. -/
theorem test_witness_UnpackChecksThenSplits :
    (bytes [0x00, 0x34, 0x00]).length < 4 ∧ (bytes [0x01, 0x02]).length < (0x03#8).toNat ∧
    ¬ (bytes [0x01, 0x02, 0x03]).length < (0x03#8).toNat ∧
    (bytes [0x00, 0x34, 0x03, 0x01, 0x02, 0x03]).foldl (fun c b => c ^^^ b) 0x00#8 ≠ 0x36#8 ∧
    ¬ (bytes [0x00, 0x34, 0x03, 0x01, 0x02, 0x03]).foldl (fun c b => c ^^^ b) 0x00#8 ≠ 0x37#8 := by decide

/-- The length byte's flips, to a longer and to a shorter length, and the checksum byte's. -/
theorem test_witness_FlippedMessageNeverUnpacks :
    let m := pack 1#11 20#5 (bytes [0x01, 0x02, 0x03])
    (bytes [0x01, 0x02, 0x03]).length ≤ 255 ∧ m[2]? = some 0x03#8 ∧ m[6]? = some 0x37#8 ∧
    unpack (m.set 2 (0x03#8 ^^^ (1#8 <<< 2))) = .error .truncatedMessage ∧
    unpack (m.set 2 (0x03#8 ^^^ (1#8 <<< 1))) = .error .checksumMismatch ∧
    unpack (m.set 6 (0x37#8 ^^^ (1#8 <<< 7))) = .error .checksumMismatch := by decide

/-! ### Intake and flow -/

/-- The four clauses at `HW` and `HW − 1`, at `LW` and `LW + 1`. -/
theorem test_witness_FlowEvaluationTransitions :
    let at_ (f : Flow) (n : Nat) := holding small f (List.replicate n 0x55)
    (at_ .flowing 12).cfg.highWatermark ≤ (at_ .flowing 12).fifo.length ∧
    (at_ .paused 4).fifo.length ≤ (at_ .paused 4).cfg.lowWatermark ∧
    (at_ .flowing 11).fifo.length < (at_ .flowing 11).cfg.highWatermark ∧
    (at_ .paused 5).cfg.lowWatermark < (at_ .paused 5).fifo.length := by decide

/-- AppendAcceptsOrOverflows, OverflowResumesFlow: exactly full, and one byte more. -/
theorem test_witness_AppendAcceptsOrOverflows :
    let s := holding small .paused (List.replicate 14 0x55)
    s.cfg.Legal ∧ bytes [0x55, 0x55] ≠ [] ∧ s.fifo.length + (bytes [0x55, 0x55]).length ≤ s.cfg.capacity ∧
    bytes [0x55, 0x55, 0x55] ≠ [] ∧ s.cfg.capacity < s.fifo.length + (bytes [0x55, 0x55, 0x55]).length ∧
    isNext (exec (.append (bytes [0x55, 0x55, 0x55])) s) = true := by decide +kernel

/-- TakeFrameProcessesOneFrame, OneFatePerFrame: a run of each fate. -/
theorem test_witness_TakeFrameProcessesOneFrame :
    let runs := [[], [0x01, 0x01], [0x02, 0x11, 0x01, 0x01, 0x01], [0x01, 0x02, 0x44, 0x02, 0x44]].map bytes
    (∀ r ∈ runs, 0x00#8 ∉ r) ∧
    runs.map receive = [.error .frameCorrupt, .error .truncatedMessage, .error .checksumMismatch,
      .ok ⟨2#11, 4#5, 0x00#8, []⟩] ∧
    (∀ r ∈ runs, isNext (exec .takeFrame { State.powerOn small with fifo := r ++ 0x00#8 :: bytes [0x55] }) = true) := by
  decide +kernel

/-- TakeFrameProcessesOneFrame without a terminator, and StepRunsDecodedOperation's last clause: a partial frame, and the
PROC step that is not enabled. -/
theorem test_witness_without_terminator :
    let s := scheduled (holding small .flowing [0x01, 0x02, 0x44]) [(.proc, [0x08])]
    s.cfg.Legal ∧ 0x00#8 ∉ s.fifo ∧ s.schedule = [⟨.proc, [0x08#8]⟩] ∧ enabled .proc .takeFrame s = false ∧
    after (step s) (·.replies) = some [] := by decide

/-- EventOrderInsideStep: an overflow while Paused, and a removal that resumes. -/
theorem test_witness_EventOrderInsideStep :
    let s := holding small .paused (List.replicate 7 0x55 ++ [0x00] ++ List.replicate 4 0x55)
    List.replicate 5 0x55#8 ≠ [] ∧ s.cfg.capacity < s.fifo.length + (List.replicate 5 0x55#8).length ∧
    isNext (exec (.append (List.replicate 5 0x55#8)) s) = true ∧ 0x00#8 ∈ s.fifo ∧
    isNext (exec .takeFrame s) = true := by decide +kernel

/-- FifoChangesOnlyAsListed, LineChangesOnlyWithFlow: each operation that changes the FIFO answers a next state. -/
theorem test_witness_fifo_changes :
    let s := holding small .paused (List.replicate 7 0x55 ++ [0x00] ++ List.replicate 4 0x55)
    s.LineMirrorsFlow ∧
    (∀ i ∈ [Instr.append (bytes [0x55]), .append (List.replicate 5 0x55#8), .takeFrame, .reset, .write 1#11 20#5 []],
      isNext (exec i s) = true) := by decide +kernel

/-- WatermarkHysteresis, StepKeepsFlowWithinBand: a step that reaches `HW`, one that reaches `LW`, one that stays between. -/
theorem test_witness_WatermarkHysteresis :
    let s := scheduled (holding small .flowing (List.replicate 11 0x55)) [(.rx, [0x07, 0x00, 0x01, 0x55])]
    let u := scheduled (holding small .paused (List.replicate 7 0x55 ++ [0x00] ++ List.replicate 4 0x55))
      [(.proc, [0x08])]
    let v := scheduled (holding small .flowing (List.replicate 10 0x55)) [(.rx, [0x07, 0x00, 0x01, 0x55])]
    s.FlowWithinBand ∧ after (step s) (·.fifo.length) = some 12 ∧
    u.FlowWithinBand ∧ after (step u) (·.fifo.length) = some 4 ∧
    v.FlowWithinBand ∧ after (step v) (·.fifo.length) = some 11 := by decide +kernel

/-! ### Transmit and status -/

/-- The last defined register and the first reserved one. -/
theorem test_witness_ReadStatusReturnsRegister :
    let s := holding small .paused (List.replicate 16 0x55)
    s.cfg.Legal ∧ s.OccWithinCapacity ∧ 10 ≤ (0x0A#8).toNat ∧
    [s.fifo.length, 1, 0, 0, 0, 0, s.cfg.capacity, s.cfg.highWatermark, s.cfg.lowWatermark,
      s.cfg.maxPayload][(0x09#8).toNat]? = some 255 := by decide

theorem test_witness_TransmitAndReceiveIndependent :
    let s := holding small .flowing [0x00, 0x55]
    isNext (exec (.write 1#11 20#5 []) s) = true ∧ isNext (exec .takeFrame s) = true ∧
    isNext (exec (.append (bytes [0x55])) s) = true := by decide +kernel

/-! ### Encoding -/

/-- The operand forms of the per-operation statements: a length with both bytes in use, and every field at its largest. -/
theorem test_witness_operand_forms :
    (List.replicate 257 0x55#8).length = (0x01#8).toNat * 256 + (0x01#8).toNat ∧
    ([] : Bytes).length = (0x00#8).toNat * 256 + (0x00#8).toNat ∧
    (List.replicate 255 0x55#8).length = (0xFF#8).toNat ∧ (0x07#8).toNat < 8 ∧ (0x1F#8).toNat < 32 ∧
    (0x09#8).toNat < 10 := by decide +kernel

/-- DecodeOfEncode: an operand of each form at its longest (its tests of well-formedness stand above). -/
theorem test_witness_DecodeOfEncode :
    (Instr.write 2047#11 31#5 (List.replicate 255 0xFF#8)).wellFormed = true ∧
    (Instr.readStatus 0x09#8).wellFormed = true ∧ (Instr.checksum []).wellFormed = true := by decide +kernel

/-- EncodeOfDecode: a transaction of each form decodes. -/
theorem test_witness_EncodeOfDecode :
    ([[0x00], [0x01, 0x00, 0x00], [0x05, 0x07, 0xFF, 0x1F, 0x00], [0x0A, 0x09]].map fun t =>
      (decode (bytes t)).isOk) = [true, true, true, true] := by decide

/-- ReservedCommandRefused: the first and the last reserved command byte. -/
theorem test_witness_ReservedCommandRefused :
    0x0B ≤ (0x0B#8).toNat ∧ 0x0B ≤ (0xFF#8).toNat ∧ State.reset.cfg.Legal ∧
    (scheduled State.reset [(.tx, [0x0B]), (.rx, [0xFF])]).schedule = [⟨.tx, [0x0B#8]⟩, ⟨.rx, [0xFF#8]⟩] := by decide

/-- MalformedTransactionRefused: one transaction for each disjunct. -/
theorem test_witness_MalformedTransactionRefused :
    (bytes [0x08, 0x01] = 0x08#8 :: [0x01#8] ∧ (0x08#8).toNat = 8 ∧ [0x01#8] ≠ []) ∧
    (bytes [0x07, 0x00, 0x01, 0x01, 0x02] = 0x07#8 :: 0x00#8 :: 0x01#8 :: bytes [0x01, 0x02] ∧
      (0x07#8).toNat ∈ [1, 2, 3, 4, 6, 7] ∧ (bytes [0x01, 0x02]).length ≠ (0x00#8).toNat * 256 + (0x01#8).toNat) ∧
    (bytes [0x09, 0x00, 0x01, 0x14, 0x02, 0x01] = 0x09#8 :: 0x00#8 :: 0x01#8 :: 0x14#8 :: 0x02#8 :: bytes [0x01] ∧
      (0x09#8).toNat = 9 ∧ (bytes [0x01]).length ≠ (0x02#8).toNat) ∧
    (bytes [0x0A] = 0x0A#8 :: [] ∧ (0x0A#8).toNat = 10 ∧ ([] : Bytes).length ≠ 1) := by decide

/-- ReservedOperandRefused: the lowest reserved bit of each field, and the first reserved register. -/
theorem test_witness_ReservedOperandRefused :
    (bytes [0x09, 0x08, 0x00, 0x14, 0x00] = 0x09#8 :: 0x08#8 :: 0x00#8 :: 0x14#8 :: 0x00#8 :: [] ∧
      ([] : Bytes).length = (0x00#8).toNat ∧ 0x08 ≤ (0x08#8).toNat) ∧
    (bytes [0x05, 0x00, 0x01, 0x20, 0x00] = 0x05#8 :: 0x00#8 :: 0x01#8 :: 0x20#8 :: 0x00#8 :: [] ∧
      0x20 ≤ (0x20#8).toNat) ∧
    (bytes [0x0A, 0x0A] = [0x0A#8, 0x0A#8] ∧ 0x0A ≤ (0x0A#8).toNat) := by decide

/-! ### Whole-machine rules -/

/-- StepRunsDecodedOperation: PROC's step with a frame waiting, and a state with nothing issued. -/
theorem test_witness_StepRunsDecodedOperation :
    let s := scheduled (holding small .flowing [0x01, 0x00]) [(.proc, [0x08]), (.rx, [0x00])]
    s.schedule = ⟨.proc, [0x08#8]⟩ :: [⟨.rx, [0x00#8]⟩] ∧ decode [0x08#8] = .ok .takeFrame ∧
    enabled .proc .takeFrame s = true ∧ State.reset.cfg.Legal ∧ State.reset.schedule = [] := by decide

/-- ConfigurationNeverChanges, HistoryAndTransmitOnlyGrow, CountersChangeOnlyByCount, StepKeepsOccupancyBound,
StepKeepsInvariant: steps that answer a next state from a state that meets the invariant, a RESET, an error that is
counted, and a WRITE among them. -/
theorem test_witness_steps :
    ∀ t ∈ [[0x00], [0x08], [0x09, 0x00, 0x01, 0x14, 0x00], [0x07, 0x00, 0x0D] ++ List.replicate 13 0x55, [0x0B]],
      let s := scheduled (holding small .flowing [0x00, 0x55, 0x55, 0x55]) [(.host, t)]
      s.Inv ∧ isNext (step s) = true := by decide +kernel

/-- EveryOperationReturnsOneResult: COBS_DECODE's error data. -/
theorem test_witness_EveryOperationReturnsOneResult :
    State.reset.cfg.Legal ∧ after (exec (.cobsDecode []) State.reset) result = some [0x06, 0x00, 0x00] := by decide

/-- UncountedCodesChangeNothing: a step for each disjunct. -/
theorem test_witness_UncountedCodesChangeNothing :
    let last (t : List Nat) := after (issue (Cfg.mk 16 12 4 0) t) (·.replies)
    last [0x09, 0x00, 0x01, 0x14, 0x01, 0x55] = some ([] ++ [⟨.host, .payloadTooLong, []⟩]) ∧
    last [0x08] = some ([] ++ [⟨.host, .noTerminator, []⟩]) ∧
    last [0x0B] = some ([] ++ [⟨.host, .illegalCommand, []⟩]) ∧
    last [] = some ([] ++ [⟨.host, .illegalOperand, []⟩]) ∧
    last [0x04, 0x00, 0x01, 0x00] = some ([] ++ [⟨.host, .frameCorrupt, bytes [0x00, 0x01]⟩]) ∧
    last [0x06, 0x00, 0x00] = some ([] ++ [⟨.host, .truncatedMessage, []⟩]) := by decide +kernel

/-- PureOperationsChangeNothing: a pure operation and READ_STATUS. -/
theorem test_witness_PureOperationsChangeNothing :
    isNext (exec (.verify []) State.reset) = true ∧ isNext (exec (.readStatus 0x0A#8) State.reset) = true := by decide

/-- AgentFootprints: each agent with an operation of its row. -/
theorem test_witness_AgentFootprints :
    mayIssue .rx (.append (bytes [0x55])) = true ∧ mayIssue .proc .takeFrame = true ∧
    mayIssue .tx (.write 1#11 20#5 []) = true ∧ mayIssue .host .reset = true ∧
    decode (bytes [0x07, 0x00, 0x01, 0x55]) = .ok (.append (bytes [0x55])) ∧ decode (bytes [0x08]) = .ok .takeFrame ∧
    decode (bytes [0x09, 0x00, 0x01, 0x14, 0x00]) = .ok (.write 1#11 20#5 []) ∧ decode (bytes [0x00]) = .ok .reset ∧
    (∀ p ∈ [(Agent.rx, [0x07, 0x00, 0x01, 0x55]), (.proc, [0x08]), (.tx, [0x09, 0x00, 0x01, 0x14, 0x00]), (.host, [0x00])],
      isNext (step (scheduled (holding small .flowing [0x55, 0x00]) [p])) = true) := by decide +kernel

/-! ### Frames through the block -/

/-- DrainTakesFramesInOrder: frames of three fates and a partial frame (its one hypothesis is a legal configuration). -/
theorem test_witness_DrainTakesFramesInOrder :
    let s := holding Cfg.default .flowing
      [0x01, 0x05, 0x34, 0x01, 0x11, 0x24, 0x00, 0x00, 0x01, 0x05, 0x54, 0x01, 0x12, 0x46, 0x00, 0x55]
    s.cfg.Legal ∧ (completeRuns s.fifo).map receive =
      [.ok ⟨1#11, 20#5, 0x01#8, [0x11#8]⟩, .error .frameCorrupt, .error .checksumMismatch] ∧
    partialFrame s.fifo = [0x55#8] := by decide +kernel

/-- LoopbackDeliversMessage: a FIFO that ends in a 0x00 with a frame that just fits, and an empty one with a payload of
exactly `MAX_PAYLOAD` bytes. -/
theorem test_witness_LoopbackDeliversMessage :
    let s := holding small .flowing [0x55, 0x00]
    let p := bytes [0x01, 0x02, 0x03, 0x04, 0x05, 0x06, 0x07, 0x08]
    s.cfg.Legal ∧ p.length ≤ s.cfg.maxPayload ∧ (s.fifo = [] ∨ s.fifo.getLast? = some 0x00#8) ∧
    s.fifo.length + (wireFrame 1#11 20#5 p).length = s.cfg.capacity ∧
    State.reset.fifo = [] ∧ (List.replicate 255 0x11#8).length = State.reset.cfg.maxPayload ∧
    (wireFrame 9#11 20#5 (List.replicate 255 0x11#8)).length ≤ State.reset.cfg.capacity := by decide +kernel

/-- WaitingFramesAreTaken: two frames wait and PROC steps once, with a chunk of RX before it. -/
theorem test_witness_WaitingFramesAreTaken :
    let s := scheduled (holding small .flowing [0x01, 0x00, 0x55, 0x00]) [(.rx, [0x07, 0x00, 0x01, 0x55]), (.proc, [0x08])]
    s.cfg.Legal ∧ (∀ u ∈ s.schedule, decode u.bytes ≠ .ok .reset) ∧ s.schedule.count ⟨.proc, [0x08#8]⟩ = 1 ∧
    after (runSteps s.schedule.length s) (fun t => errorCount .bufferOverflow t.hist) = some 0 ∧
    (completeRuns s.fifo).length = 2 := by decide +kernel

/-! ### Endless runs (70_reset_and_hazards.md R325) -/

/-- One frame waits and PROC is issued TAKE_FRAME at every moment: a run, and a weakly fair one, in which moment 0 gives the
frame its fate. -/
theorem test_witness_waiting_frames_taken :
    let s := holding small .flowing [0x00]
    let t := (after (moment (some procTakesFrame) s) id).getD s
    let run := fun n => match n with
      | 0 => s
      | _ + 1 => t
    IsRun (fun _ => some procTakesFrame) run ∧ ProcWeaklyFair (fun _ => some procTakesFrame) run ∧
      waitingFates s = [.error .frameCorrupt] ∧ t.hist = [.error .frameCorrupt] :=
  ⟨fun n => match n with
      | 0 => rfl
      | _ + 1 => rfl,
    fun n _ => ⟨n, Nat.le_refl n, rfl⟩, by decide +kernel, by decide +kernel⟩

/-- Without fairness a frame may stay for ever: no agent ever steps, TAKE_FRAME stays enabled, nothing is taken. -/
theorem test_unfair_run_leaves_a_frame :
    let s := holding small .flowing [0x00]
    IsRun (fun _ => none) (fun _ => s) ∧ ¬ ProcWeaklyFair (fun _ => none) (fun _ => s) ∧
      waitingFates s = [.error .frameCorrupt] := by
  refine ⟨idle_run (by decide) rfl, fun h => ?_, by decide +kernel⟩
  obtain ⟨m, -, hm⟩ := h 0 fun _ _ => rfl
  cases hm

/-- One byte too many discards what waits, and so does RESET; an APPEND that just fits, an empty one or no step does not. -/
theorem test_discards :
    let s := holding small .flowing [0x00]
    Discards (some ⟨.host, [0x00#8]⟩) s ∧
      Discards (some ⟨.rx, [0x07#8, 0x00#8, 0x10#8] ++ List.replicate 16 0x55#8⟩) s ∧
      ¬ Discards (some ⟨.rx, [0x07#8, 0x00#8, 0x0F#8] ++ List.replicate 15 0x55#8⟩) s ∧
      ¬ Discards (some ⟨.rx, [0x07#8, 0x00#8, 0x00#8]⟩) s ∧ ¬ Discards none s := by
  refine ⟨⟨_, rfl, .inl (by decide)⟩,
    ⟨_, rfl, .inr ⟨List.replicate 16 0x55#8, by decide, by decide, by decide⟩⟩, ?_, ?_, nofun⟩
  · rintro ⟨u, hu, h | ⟨chunk, h, _, hlt⟩⟩ <;> cases hu <;> cases h
    exact absurd hlt (by decide)
  · rintro ⟨u, hu, h | ⟨chunk, h, hne, _⟩⟩ <;> cases hu <;> cases h
    exact hne rfl

end Sys2Proof.Tests
end

section
/-! PROOFS. 00_scope.md: the configuration record. -/

namespace Sys2Proof.Machine

open Sys2Proof

/-- Legality with the largest capacity written as a power of two (00_scope.md R7). -/
theorem legal_iff_lt_two_pow (c : Cfg) :
    c.Legal ↔ 1 ≤ c.capacity ∧ c.capacity < 2 ^ 32 ∧ c.lowWatermark < c.highWatermark ∧
      c.highWatermark ≤ c.capacity ∧ c.maxPayload ≤ 255 := by
  have bound : c.capacity ≤ 4294967295 ↔ c.capacity < 2 ^ 32 := by omega
  rw [Cfg.Legal, bound]

/-- Whatever a step does on the way to a next state (idle, refuse, pass over, run an operation), `cfg` stays
(00_scope.md R6). -/
theorem step_cfg {s t : State} (h : step s = .next t) : t.cfg = s.cfg := by
  obtain ⟨-, stop⟩ | ⟨-, -, idle⟩ | ⟨-, u, rest, -, issued⟩ := step_cases s
  · cases stop.symm.trans h
  · cases idle.symm.trans h
    rfl
  · obtain ⟨r, -, refused⟩ | ⟨i, -, -, passed⟩ | ⟨i, -, -, ran⟩ := issued
    · cases refused.symm.trans h
      exact refuse_cfg _ _
    · cases passed.symm.trans h
      rfl
    · cases ran.symm.trans h
      exact effect_cfg i _

/-- Settles O45: every way a step reaches a next state keeps `cfg`. -/
theorem configurationNeverChanges : Obligations.ConfigurationNeverChanges :=
  fun _ _ => step_cfg

/-- Settles O2: the defaults are legal by evaluation, and the bounds of `Cfg.Legal` are those of the table. -/
theorem configurationDefaultsAndLegalValues : Obligations.ConfigurationDefaultsAndLegalValues := by
  refine ⟨rfl, ?_, ?_⟩
  · decide
  · exact fun c hw lw m => legal_iff_lt_two_pow ⟨c, hw, lw, m⟩

end Sys2Proof.Machine
end

section
/-! PROOFS. 10_state.md: what an operation and a step can do to the state, said once for the invariants. -/

namespace Sys2Proof.Machine

open Sys2Proof

/-- Everything an operation can do where the configuration is legal: one constructor for each way it ends, with the
guard of that way. -/
inductive Acts (s : State) : Instr → State → Prop where
  /-- RESET (44_transmit_control.md R262). -/
  | reset : Acts s .reset (reply .ok [] (clearCounters (driveFlow .flowing (setFifo [] s))))
  /-- An APPEND that does not fit (43_intake_flow.md R216). -/
  | overflow (chunk : Bytes) (nonempty : chunk ≠ []) (full : s.cfg.capacity < occ s + chunk.length) :
      Acts s (.append chunk) (reply .bufferOverflow [] (flowEval (count .bufferOverflow (setFifo [] s))))
  /-- An APPEND that fits (43_intake_flow.md R215). -/
  | enqueue (chunk : Bytes) (nonempty : chunk ≠ []) (fits : occ s + chunk.length ≤ s.cfg.capacity) :
      Acts s (.append chunk) (reply .ok [] (flowEval (setFifo (s.fifo ++ chunk) s)))
  /-- A TAKE_FRAME whose frame is dropped (43_intake_flow.md R220). -/
  | drop (run rest : Bytes) (k : ErrorKind) (noZero : 0#8 ∉ run) (split : s.fifo = run ++ 0#8 :: rest)
      (fate : receive run = .error k) :
      Acts s .takeFrame (reply k.code [] (count k (flowEval (setFifo rest s))))
  /-- A TAKE_FRAME whose message is dispatched (43_intake_flow.md R220). -/
  | dispatch (run rest : Bytes) (m : Message) (noZero : 0#8 ∉ run) (split : s.fifo = run ++ 0#8 :: rest)
      (fate : receive run = .ok m) :
      Acts s .takeFrame (reply .ok [] (emit (.dispatch m) (flowEval (setFifo rest s))))
  /-- A WRITE that puts its frame on `tx` (44_transmit_control.md R251). -/
  | transmit (id : MsgId) (cmd : MsgCmd) (payload : Bytes) (fits : payload.length ≤ s.cfg.maxPayload) :
      Acts s (.write id cmd payload) (reply .ok [] (transmit (wireFrame id cmd payload) s))
  /-- A result and nothing else: the pure operations, READ_STATUS, and the others where they do nothing. -/
  | answer (i : Instr) (code : ResultCode) (data : Bytes) (notReset : i ≠ .reset) : Acts s i (reply code data s)

/-- An operation's effect is one of the ways of `Acts`. -/
theorem effect_acts (i : Instr) (s : State) : Acts s i (effect i s) := by
  cases i with
  | reset => exact .reset
  | append chunk =>
    simp only [effect, appendChunk]
    split_ifs with empty full
    · exact .answer _ _ _ nofun
    · exact .overflow chunk empty full
    · exact .enqueue chunk empty (Nat.not_lt.mp full)
  | takeFrame =>
    obtain ⟨-, e⟩ | ⟨run, rest, noZero, split, ⟨k, fate, e⟩ | ⟨m, fate, e⟩⟩ := takeFrame_cases s <;> rw [effect, e]
    · exact .answer _ _ _ nofun
    · exact .drop run rest k noZero split fate
    · exact .dispatch run rest m noZero split fate
  | write id cmd payload =>
    simp only [effect]
    split_ifs with long
    · exact .answer _ _ _ nofun
    · exact .transmit id cmd payload (Nat.not_lt.mp long)
  | _ => simp only [effect]; (repeat' split) <;> exact .answer _ _ _ nofun

/-- What leads a step to a next state: an operation that ran, or nothing that reaches `cfg`, `st`, `hist` or `tx` (the
block idled, refused the transaction or passed it over). -/
theorem acts_of_step {s t : State} (h : step s = .next t) :
    (∃ schedule issuer replies, t = { s with schedule := schedule, issuer := issuer, replies := replies }) ∨
    ∃ u rest i, s.schedule = u :: rest ∧ decode u.bytes = .ok i ∧ enabled u.agent i s = true ∧
      Acts { s with schedule := rest, issuer := u.agent } i t := by
  obtain ⟨-, stop⟩ | ⟨-, -, idle⟩ | ⟨-, u, rest, due, issued⟩ := step_cases s
  · cases stop.symm.trans h
  · cases idle.symm.trans h
    exact .inl ⟨_, _, _, rfl⟩
  · obtain ⟨r, -, refused⟩ | ⟨i, -, -, passed⟩ | ⟨i, hi, able, ran⟩ := issued
    · cases refused.symm.trans h
      exact .inl ⟨_, _, _, rfl⟩
    · cases passed.symm.trans h
      exact .inl ⟨_, _, _, rfl⟩
    · cases ran.symm.trans h
      exact .inr ⟨u, rest, i, due, hi, able, effect_acts i _⟩

end Sys2Proof.Machine
end

section
/-! PROOFS. 10_state.md R32: the bound on the FIFO's occupancy. -/

namespace Sys2Proof.Machine

open Sys2Proof

@[simp] theorem occ_flowEval (s : State) : occ (flowEval s) = occ s := congrArg List.length (flowEval_fifo s)

/-- The FIFO grows only by an APPEND that fits; everything else empties it, takes from its head or leaves it. -/
theorem Acts.occWithinCapacity {s t : State} {i : Instr} (h : Acts s i t) (bound : s.OccWithinCapacity) :
    t.OccWithinCapacity := by
  have behind {run rest : Bytes} (split : s.fifo = run ++ 0#8 :: rest) : rest.length ≤ s.cfg.capacity := by
    have : occ s = run.length + (rest.length + 1) := by simp [occ, split]
    omega
  cases h with
  | reset => simp
  | overflow => simp
  | enqueue chunk _ fits => simpa [occ] using fits
  | drop _ _ _ _ split => simpa using behind split
  | dispatch _ _ _ _ split => simpa using behind split
  | transmit => simpa using bound
  | answer => simpa using bound

/-- Settles O53: the FIFO is empty at power-on, and whatever a step runs keeps the bound. -/
theorem stepKeepsOccupancyBound : Obligations.StepKeepsOccupancyBound := by
  refine ⟨fun c _ => Nat.zero_le _, fun s t bound h => ?_⟩
  obtain ⟨_, _, _, rfl⟩ | ⟨u, rest, i, -, -, -, ran⟩ := acts_of_step h
  · exact bound
  · exact ran.occWithinCapacity bound

end Sys2Proof.Machine
end

section
/-! PROOFS. 10_state.md R33, R34: the flow and the line that mirrors it. -/

namespace Sys2Proof.Machine

open Sys2Proof

/-- From `s` to `t` the events `ev` record what the flow did: nothing, or one change with one `FlowSet` of the new level
(10_state.md R34). -/
def FlowChangeRecorded (s t : State) (ev : List Event) : Prop :=
  (t.flow = s.flow ∧ flowLevels ev = []) ∨ (t.flow ≠ s.flow ∧ flowLevels ev = [t.fcLine])

/-- The flow evaluation keeps the line at the flow's level, and records the change it makes. -/
theorem flowEval_line {s : State} (line : s.LineMirrorsFlow) :
    (flowEval s).LineMirrorsFlow ∧ ∃ ev, (flowEval s).hist = s.hist ++ ev ∧ FlowChangeRecorded s (flowEval s) ev := by
  obtain ⟨was, -, e⟩ | ⟨was, -, e⟩ | ⟨-, -, e⟩ := flowEval_cases s <;> rw [e]
  · exact ⟨rfl, [.flowSet false], rfl, .inr ⟨by simp [was], rfl⟩⟩
  · exact ⟨rfl, [.flowSet true], rfl, .inr ⟨by simp [was], rfl⟩⟩
  · exact ⟨line, [], by simp, .inl ⟨rfl, rfl⟩⟩

/-- Every operation but RESET keeps the line at the flow's level, and records the change it makes. -/
theorem Acts.line {s t : State} {i : Instr} (h : Acts s i t) (notReset : i ≠ .reset) (line : s.LineMirrorsFlow) :
    t.LineMirrorsFlow ∧ ∃ ev, t.hist = s.hist ++ ev ∧ FlowChangeRecorded s t ev := by
  cases h with
  | reset => exact absurd rfl notReset
  | overflow chunk =>
    obtain ⟨line', ev, hist, flow⟩ := flowEval_line (s := count .bufferOverflow (setFifo [] s)) line
    exact ⟨line', .error .bufferOverflow :: ev, by simp [hist], flow⟩
  | enqueue chunk =>
    obtain ⟨line', ev, hist, flow⟩ := flowEval_line (s := setFifo (s.fifo ++ chunk) s) line
    exact ⟨line', ev, hist, flow⟩
  | drop run rest k =>
    obtain ⟨line', ev, hist, flow⟩ := flowEval_line (s := setFifo rest s) line
    exact ⟨line', ev ++ [.error k], by simp [hist], by simpa [FlowChangeRecorded, flowLevels] using flow⟩
  | dispatch run rest m =>
    obtain ⟨line', ev, hist, flow⟩ := flowEval_line (s := setFifo rest s) line
    exact ⟨line', ev ++ [.dispatch m], by simp [hist], by simpa [FlowChangeRecorded, flowLevels] using flow⟩
  | transmit id cmd payload => exact ⟨line, [.txFrame (wireFrame id cmd payload)], rfl, .inl ⟨rfl, rfl⟩⟩
  | answer => exact ⟨line, [], by simp, .inl ⟨rfl, rfl⟩⟩

/-- Only APPEND, TAKE_FRAME and RESET change the flow (10_state.md R33). -/
theorem Acts.flow_eq {s t : State} {i : Instr} (h : Acts s i t) (notAppend : ∀ chunk, i ≠ .append chunk)
    (notTake : i ≠ .takeFrame) (notReset : i ≠ .reset) : t.flow = s.flow := by
  cases h with
  | reset => exact absurd rfl notReset
  | overflow chunk => exact absurd rfl (notAppend chunk)
  | enqueue chunk => exact absurd rfl (notAppend chunk)
  | drop => exact absurd rfl notTake
  | dispatch => exact absurd rfl notTake
  | transmit => rfl
  | answer => rfl

/-- Settles O33: RESET drives the line itself; every other operation changes it only through the flow evaluation. -/
theorem lineChangesOnlyWithFlow : Obligations.LineChangesOnlyWithFlow := by
  intro i s t line h
  obtain ⟨-, rfl⟩ := exec_eq_next.mp h
  by_cases isReset : i = .reset
  · subst isReset
    exact ⟨rfl, [.flowSet true], rfl, fun _ => ⟨rfl, rfl⟩, (absurd rfl ·), fun _ _ => (absurd rfl ·)⟩
  · have acts := effect_acts i s
    obtain ⟨line', ev, hist, flow⟩ := acts.line isReset line
    exact ⟨line', ev, hist, (absurd · isReset), fun _ => flow, acts.flow_eq⟩

end Sys2Proof.Machine
end

section
/-! PROOFS. 10_state.md R35: the error counters and their events. -/

namespace Sys2Proof.Machine

open Sys2Proof

@[simp] theorem errorCount_nil (k : ErrorKind) : errorCount k [] = 0 := rfl

@[simp] theorem errorCount_append (k : ErrorKind) (a b : List Event) :
    errorCount k (a ++ b) = errorCount k a + errorCount k b := List.count_append

@[simp] theorem errorCount_error_cons (k j : ErrorKind) (ev : List Event) :
    errorCount k (.error j :: ev) = errorCount k ev + if k = j then 1 else 0 := by
  simp [errorCount, List.count_cons, eq_comm (a := j)]

@[simp] theorem errorCount_dispatch_cons (k : ErrorKind) (m : Message) (ev : List Event) :
    errorCount k (.dispatch m :: ev) = errorCount k ev := List.count_cons_of_ne (by simp)

/-- `bump` increments the counter of its own kind alone, modulo 2^32. -/
theorem get_bump_toNat (c : Counters) (k j : ErrorKind) :
    ((c.bump j).get k).toNat = ((c.get k).toNat + if k = j then 1 else 0) % 2 ^ 32 := by
  have get_bump : (c.bump j).get k = if k = j then c.get k + 1#32 else c.get k := by
    cases j <;> cases k <;> rfl
  rw [get_bump]
  split
  · exact BitVec.toNat_add _ _
  · exact (Nat.mod_eq_of_lt (c.get k).isLt).symm

/-- From the counters `c` to `c'` the events `ev` record what was counted: nothing, or one error of kind `j`
(10_state.md R35). -/
def CountRecorded (c c' : Counters) (ev : List Event) : Prop :=
  (c' = c ∧ ∀ k, errorCount k ev = 0) ∨ ∃ j, c' = c.bump j ∧ ∀ k, errorCount k ev = if k = j then 1 else 0

/-- Counters that recorded what was counted hold their values before plus the numbers of the events. -/
theorem CountRecorded.toNat_get {c c' : Counters} {ev : List Event} (h : CountRecorded c c' ev) (k : ErrorKind) :
    (c'.get k).toNat = ((c.get k).toNat + errorCount k ev) % 2 ^ 32 := by
  obtain ⟨rfl, none⟩ | ⟨j, rfl, one⟩ := h
  · rw [none, Nat.add_zero, Nat.mod_eq_of_lt (c'.get k).isLt]
  · rw [one, get_bump_toNat]

/-- Counters that recorded what was counted come with at most one error event. -/
theorem CountRecorded.at_most_one {c c' : Counters} {ev : List Event} (h : CountRecorded c c' ev) :
    ∃ k, errorCount k ev ≤ 1 ∧ ∀ k', k' ≠ k → errorCount k' ev = 0 := by
  obtain ⟨-, none⟩ | ⟨j, -, one⟩ := h
  · exact ⟨.bufferOverflow, by simp [none], fun k _ => none k⟩
  · exact ⟨j, by simp [one], fun k other => by simp [one, other]⟩

/-- Every operation but RESET changes the counters by `count` alone, at most once. -/
theorem Acts.countRecorded {s t : State} {i : Instr} (h : Acts s i t) (notReset : i ≠ .reset) :
    ∃ ev, t.hist = s.hist ++ ev ∧ CountRecorded s.cnt t.cnt ev := by
  cases h with
  | reset => exact absurd rfl notReset
  | overflow chunk =>
    obtain ⟨ev, hist, -, -, quiet⟩ := flowEval_hist (count .bufferOverflow (setFifo [] s))
    exact ⟨.error .bufferOverflow :: ev, by simp [hist], .inr ⟨.bufferOverflow, by simp, by simp [quiet]⟩⟩
  | enqueue chunk =>
    obtain ⟨ev, hist, -, -, quiet⟩ := flowEval_hist (setFifo (s.fifo ++ chunk) s)
    exact ⟨ev, hist, .inl ⟨by simp, quiet⟩⟩
  | drop run rest k =>
    obtain ⟨ev, hist, -, -, quiet⟩ := flowEval_hist (setFifo rest s)
    exact ⟨ev ++ [.error k], by simp [hist], .inr ⟨k, by simp, by simp [quiet]⟩⟩
  | dispatch run rest m =>
    obtain ⟨ev, hist, -, -, quiet⟩ := flowEval_hist (setFifo rest s)
    exact ⟨ev ++ [.dispatch m], by simp [hist], .inl ⟨by simp, by simp [quiet]⟩⟩
  | transmit id cmd payload => exact ⟨[.txFrame (wireFrame id cmd payload)], rfl, .inl ⟨rfl, fun _ => rfl⟩⟩
  | answer => exact ⟨[], by simp, .inl ⟨rfl, fun _ => rfl⟩⟩

/-- Settles O50: RESET clears the counters with its one `FlowSet`; any other step records what it counts. -/
theorem countersChangeOnlyByCount : Obligations.CountersChangeOnlyByCount := by
  intro s t h
  obtain ⟨_, _, _, rfl⟩ | ⟨u, rest, i, due, spells, -, ran⟩ := acts_of_step h
  · have still : CountRecorded s.cnt s.cnt [] := .inl ⟨rfl, errorCount_nil⟩
    exact ⟨[], by simp, .inr ⟨still.toNat_get, still.at_most_one⟩⟩
  · by_cases isReset : i = .reset
    · subst isReset
      cases ran with
      | reset => exact ⟨[.flowSet true], rfl, .inl ⟨⟨u, rest, due, spells⟩, rfl, fun _ => rfl⟩⟩
      | answer _ _ _ notReset => exact absurd rfl notReset
    · obtain ⟨ev, hist, counted⟩ := ran.countRecorded isReset
      exact ⟨ev, hist, .inr ⟨counted.toNat_get, counted.at_most_one⟩⟩

end Sys2Proof.Machine
end

section
/-! PROOFS. 20_memory.md R71: what changes the FIFO. -/

namespace Sys2Proof.Machine

open Sys2Proof

/-- Of the ways an operation ends, RESET and the overflow empty the FIFO, the APPEND that fits extends its tail, the two
removals of TAKE_FRAME cut it at its first 0x00, and the others do not write it. -/
theorem Acts.fifo {s t : State} {i : Instr} (h : Acts s i t) :
    t.fifo = s.fifo ∨
    (∃ chunk, i = .append chunk ∧ (t.fifo = s.fifo ++ chunk ∨
      (s.cfg.capacity < s.fifo.length + chunk.length ∧ t.fifo = []))) ∨
    (i = .takeFrame ∧ ∃ run, 0x00#8 ∉ run ∧ s.fifo = run ++ 0x00#8 :: t.fifo) ∨
    (i = .reset ∧ t.fifo = []) := by
  cases h with
  | reset => exact .inr (.inr (.inr ⟨rfl, rfl⟩))
  | overflow chunk _ full => exact .inr (.inl ⟨chunk, rfl, .inr ⟨full, by simp⟩⟩)
  | enqueue chunk => exact .inr (.inl ⟨chunk, rfl, .inl (by simp)⟩)
  | drop run _ _ noZero split => exact .inr (.inr (.inl ⟨rfl, run, noZero, by simpa using split⟩))
  | dispatch run _ _ noZero split => exact .inr (.inr (.inl ⟨rfl, run, noZero, by simpa using split⟩))
  | transmit => exact .inl rfl
  | answer => exact .inl rfl

/-- Settles O31: an operation's effect is one of the ways of `Acts`, each of which is on R71's list. -/
theorem fifoChangesOnlyAsListed : Obligations.FifoChangesOnlyAsListed := by
  intro i s t h
  obtain ⟨-, rfl⟩ := exec_eq_next.mp h
  exact (effect_acts i s).fifo

end Sys2Proof.Machine
end

section
/-! PROOFS. 20_memory.md R83: the transmit path and the receive path do not touch each other. Each is shown to commute
with an arbitrary overwrite of the other's state. That it does not read that state is the commutation itself; that it does
not write it is the commutation with the overwrite by the values already there, which is no overwrite at all. -/

namespace Sys2Proof.Machine

open Sys2Proof

/-- `s` with the receive path's state overwritten. -/
def withReceive (f : Bytes) (g : Flow) (l : Bool) (c : Counters) (s : State) : State :=
  { s with fifo := f, flow := g, fcLine := l, cnt := c }

/-- `s` with the transmit stream overwritten. -/
def withTx (x : Bytes) (s : State) : State := { s with tx := x }

section
variable (f : Bytes) (g : Flow) (l : Bool) (c : Counters) (s : State)

@[simp] theorem withReceive_cfg : (withReceive f g l c s).cfg = s.cfg := rfl
@[simp] theorem reply_withReceive (r : ResultCode) (d : Bytes) :
    reply r d (withReceive f g l c s) = withReceive f g l c (reply r d s) := rfl
@[simp] theorem transmit_withReceive (w : Bytes) :
    transmit w (withReceive f g l c s) = withReceive f g l c (transmit w s) := rfl

/-- WRITE branches on the payload and `cfg` alone, and neither branch reaches the receive path. -/
theorem effect_write_withReceive (id : MsgId) (cmd : MsgCmd) (p : Bytes) :
    effect (.write id cmd p) (withReceive f g l c s) = withReceive f g l c (effect (.write id cmd p) s) := by
  by_cases long : s.cfg.maxPayload < p.length
  · simp [effect, long]
  · simp [effect, long]

end

section
variable (x : Bytes) (s : State)

@[simp] theorem withTx_cfg : (withTx x s).cfg = s.cfg := rfl
@[simp] theorem withTx_fifo : (withTx x s).fifo = s.fifo := rfl
@[simp] theorem withTx_flow : (withTx x s).flow = s.flow := rfl
@[simp] theorem occ_withTx : occ (withTx x s) = occ s := rfl

@[simp] theorem reply_withTx (c : ResultCode) (d : Bytes) : reply c d (withTx x s) = withTx x (reply c d s) := rfl
@[simp] theorem emit_withTx (e : Event) : emit e (withTx x s) = withTx x (emit e s) := rfl
@[simp] theorem count_withTx (k : ErrorKind) : count k (withTx x s) = withTx x (count k s) := rfl
@[simp] theorem setFifo_withTx (b : Bytes) : setFifo b (withTx x s) = withTx x (setFifo b s) := rfl
@[simp] theorem driveFlow_withTx (f : Flow) : driveFlow f (withTx x s) = withTx x (driveFlow f s) := rfl

/-- The flow evaluation branches on the flow, the occupancy and the watermarks alone. -/
@[simp] theorem flowEval_withTx : flowEval (withTx x s) = withTx x (flowEval s) := by
  by_cases pause : s.flow = .flowing ∧ s.cfg.highWatermark ≤ occ s
  · simp [flowEval, pause]
  · by_cases resume : s.flow = .paused ∧ occ s ≤ s.cfg.lowWatermark
    · simp [flowEval, resume]
    · simp [flowEval, pause, resume]

/-- APPEND branches on the chunk, the occupancy and the capacity alone. -/
theorem appendChunk_withTx (chunk : Bytes) : appendChunk chunk (withTx x s) = withTx x (appendChunk chunk s) := by
  by_cases empty : chunk = []
  · simp [appendChunk, empty]
  · by_cases full : s.cfg.capacity < occ s + chunk.length
    · simp [appendChunk, empty, full]
    · simp [appendChunk, empty, full]

/-- TAKE_FRAME branches on the FIFO alone. -/
theorem takeFrame_withTx : takeFrame (withTx x s) = withTx x (takeFrame s) := by
  cases found : first0 s.fifo with
  | none => simp [takeFrame, found]
  | some t =>
    cases fate : receive (s.fifo.take t) with
    | error k => simp [takeFrame, found, fate]
    | ok m => simp [takeFrame, found, fate]

end

/-- Settles O37: each path commutes with the other's overwrite, and so leaves the other's state as it is. -/
theorem transmitAndReceiveIndependent : Obligations.TransmitAndReceiveIndependent := by
  refine ⟨fun id cmd p s t f g l c h => ?_, fun i s t x receives h => ?_⟩
  · obtain ⟨legal, rfl⟩ := exec_eq_next.mp h
    have kept := effect_write_withReceive s.fifo s.flow s.fcLine s.cnt s id cmd p
    exact ⟨(congrArg State.fifo kept :), (congrArg State.flow kept :), (congrArg State.fcLine kept :),
      (congrArg State.cnt kept :), exec_eq_next.mpr ⟨legal, effect_write_withReceive f g l c s id cmd p⟩⟩
  · obtain ⟨legal, rfl⟩ := exec_eq_next.mp h
    have blind (y : Bytes) : effect i (withTx y s) = withTx y (effect i s) := by
      obtain rfl | ⟨chunk, rfl⟩ := receives
      · exact takeFrame_withTx y s
      · exact appendChunk_withTx y s chunk
    exact ⟨(congrArg State.tx (blind s.tx) :), exec_eq_next.mpr ⟨legal, blind x⟩⟩

end Sys2Proof.Machine
end

section
/-! PROOFS. 30_encoding.md R111 to R125: how the decoder reads each operand form, and how a step answers a transaction
it rejects. -/

namespace Sys2Proof.Machine

open Sys2Proof

/-! ### Which form a command byte takes (R112) -/

theorem decode_of_none_command {c : Byte} (h : c.toNat = 0 ∨ c.toNat = 8) :
    ∃ i, ∀ x, decode (c :: x) = decodeNone i x := by
  obtain h | h := h
  · exact ⟨.reset, fun x => by simp only [decode, h]⟩
  · exact ⟨.takeFrame, fun x => by simp only [decode, h]⟩

theorem decode_of_data_command {c : Byte} (h : c.toNat ∈ [1, 2, 3, 4, 6, 7]) :
    ∃ mk, ∀ x, decode (c :: x) = decodeData mk x := by
  simp only [List.mem_cons, List.not_mem_nil, or_false] at h
  obtain h | h | h | h | h | h := h
  · exact ⟨.checksum, fun x => by simp only [decode, h]⟩
  · exact ⟨.verify, fun x => by simp only [decode, h]⟩
  · exact ⟨.cobsEncode, fun x => by simp only [decode, h]⟩
  · exact ⟨.cobsDecode, fun x => by simp only [decode, h]⟩
  · exact ⟨.unpack, fun x => by simp only [decode, h]⟩
  · exact ⟨.append, fun x => by simp only [decode, h]⟩

theorem decode_of_message_command {c : Byte} (h : c.toNat = 5 ∨ c.toNat = 9) :
    ∃ mk, ∀ x, decode (c :: x) = decodeMessage mk x := by
  obtain h | h := h
  · exact ⟨.pack, fun x => by simp only [decode, h]⟩
  · exact ⟨.write, fun x => by simp only [decode, h]⟩

theorem decode_of_register_command {c : Byte} (h : c.toNat = 10) (x : Bytes) :
    decode (c :: x) = decodeRegister x := by
  simp only [decode, h]

/-- No arm of the decoder matches a command byte from 0x0B up (R124). -/
theorem decode_of_reserved_command {c : Byte} (h : 0x0B ≤ c.toNat) (x : Bytes) :
    decode (c :: x) = .error .reservedCommand := by
  obtain ⟨n, number⟩ := Nat.exists_eq_add_of_le' h
  simp only [decode, number]

/-! ### What each form accepts (R113, R123, R125) -/

theorem decodeNone_of_ne_nil (i : Instr) {x : Bytes} (h : x ≠ []) : decodeNone i x = .error .lengthMismatch := by
  cases x with
  | nil => exact absurd rfl h
  | cons => rfl

/-- `LEN16` as a number decides whether `DATA` is whole. -/
theorem decodeData_cons_cons (mk : Bytes → Instr) (hi lo : Byte) (data : Bytes) :
    decodeData mk (hi :: lo :: data) =
      if data.length = hi.toNat * 256 + lo.toNat then .ok (mk data) else .error .lengthMismatch := by
  rw [decodeData, Laws.ofBe16_toNat]

theorem decodeData_of_wrong_length (mk : Bytes → Instr) {x : Bytes}
    (h : ∀ hi lo data, x = hi :: lo :: data → data.length ≠ hi.toNat * 256 + lo.toNat) :
    decodeData mk x = .error .lengthMismatch := by
  match x with
  | [] => rfl
  | [_] => rfl
  | hi :: lo :: data => rw [decodeData_cons_cons, if_neg (h hi lo data rfl)]

/-- Bits 15..11 of `ID16` are the high five bits of its first byte. -/
theorem id16_reserved_iff (hi lo : Byte) : (ofBe16 hi lo).extractLsb' 11 5 ≠ 0#5 ↔ 0x08 ≤ hi.toNat := by
  have := hi.isLt
  have := lo.isLt
  rw [Ne, ← BitVec.toNat_inj, BitVec.extractLsb'_toNat, Laws.ofBe16_toNat, Nat.shiftRight_eq_div_pow]
  simp only [BitVec.toNat_ofNat]
  omega

theorem cmd8_reserved_iff (cmd : Byte) : cmd.extractLsb' 5 3 ≠ 0#3 ↔ 0x20 ≤ cmd.toNat := by
  have := cmd.isLt
  rw [Ne, ← BitVec.toNat_inj, BitVec.extractLsb'_toNat, Nat.shiftRight_eq_div_pow]
  simp only [BitVec.toNat_ofNat]
  omega

/-- A message operand is judged by its length before its reserved bits (60_exceptions.md R292). -/
theorem decodeMessage_of_wrong_length (mk : MsgId → MsgCmd → Bytes → Instr) {x : Bytes}
    (h : ∀ i1 i2 cm len p, x = i1 :: i2 :: cm :: len :: p → p.length ≠ len.toNat) :
    decodeMessage mk x = .error .lengthMismatch := by
  match x with
  | [] | [_] | [_, _] | [_, _, _] => rfl
  | i1 :: i2 :: cm :: len :: p => exact if_pos (h i1 i2 cm len p rfl)

theorem decodeMessage_of_reserved_bits (mk : MsgId → MsgCmd → Bytes → Instr) {i1 i2 cm len : Byte} {p : Bytes}
    (length : p.length = len.toNat) (h : 0x08 ≤ i1.toNat ∨ 0x20 ≤ cm.toNat) :
    decodeMessage mk (i1 :: i2 :: cm :: len :: p) = .error .reservedBits := by
  rw [decodeMessage, if_neg (not_not_intro length), if_pos]
  rwa [id16_reserved_iff, cmd8_reserved_iff]

theorem decodeRegister_of_wrong_length {x : Bytes} (h : x.length ≠ 1) :
    decodeRegister x = .error .lengthMismatch := by
  match x with
  | [] => rfl
  | [_] => exact absurd rfl h
  | _ :: _ :: _ => rfl

theorem decodeRegister_of_reserved {reg : Byte} (h : 0x0A ≤ reg.toNat) :
    decodeRegister [reg] = .error .reservedRegister := if_neg (Nat.not_lt.mpr h)

/-! ### The step of a rejected transaction -/

/-- A transaction that spells no operation ends in its refusal, whoever issues it (60_exceptions.md R289). -/
theorem step_of_decode_error {s : State} {a : Agent} {bytes : Bytes} {rest : List Issue} {r : Reject}
    (legal : s.cfg.Legal) (due : s.schedule = ⟨a, bytes⟩ :: rest) (rejected : decode bytes = .error r) :
    step s = .next { s with
      schedule := rest, issuer := a, replies := s.replies ++ [⟨a, rejectCode r, []⟩] } := by
  simp only [step, runNext, due, runTransaction, rejected]
  exact onInstance_of_legal _ legal

/-- Settles O41: the decoder rejects the command byte before it looks at an operand. -/
theorem reservedCommandRefused : Obligations.ReservedCommandRefused :=
  fun _ _ _ operands _ legal reserved due =>
    step_of_decode_error legal due (decode_of_reserved_command reserved operands)

/-- Settles O42: the decoder finds no command byte, or the operand form of the command byte rejects the length. -/
theorem malformedTransactionRefused : Obligations.MalformedTransactionRefused := by
  rintro s a bytes rest legal due
    (rfl | ⟨c, x, rfl, form, wrong⟩ | ⟨c, x, rfl, form, wrong⟩ | ⟨c, x, rfl, form, wrong⟩ | ⟨c, x, rfl, form, wrong⟩)
  · exact step_of_decode_error (r := .emptyTransaction) legal due rfl
  · obtain ⟨i, decoded⟩ := decode_of_none_command form
    exact step_of_decode_error legal due ((decoded x).trans (decodeNone_of_ne_nil i wrong))
  · obtain ⟨mk, decoded⟩ := decode_of_data_command form
    exact step_of_decode_error legal due ((decoded x).trans (decodeData_of_wrong_length mk wrong))
  · obtain ⟨mk, decoded⟩ := decode_of_message_command form
    exact step_of_decode_error legal due ((decoded x).trans (decodeMessage_of_wrong_length mk wrong))
  · have decoded := decode_of_register_command form x
    exact step_of_decode_error legal due (decoded.trans (decodeRegister_of_wrong_length wrong))

/-- Settles O43: the message form of the right length comes to its reserved bits, the register form to its number. -/
theorem reservedOperandRefused : Obligations.ReservedOperandRefused := by
  rintro s a bytes rest legal due (⟨c, i1, i2, cm, len, p, rfl, form, length, bits⟩ | ⟨c, reg, rfl, form, reserved⟩)
  · obtain ⟨mk, decoded⟩ := decode_of_message_command form
    exact step_of_decode_error legal due ((decoded _).trans (decodeMessage_of_reserved_bits mk length bits))
  · have decoded := decode_of_register_command form [reg]
    exact step_of_decode_error legal due (decoded.trans (decodeRegister_of_reserved reserved))

end Sys2Proof.Machine
end

section
/-! PROOFS. 30_encoding.md R101 to R104: the header of a message, written and read. -/

namespace Sys2Proof.Machine

open Sys2Proof

/-- The first header byte as a number. -/
theorem headerByte0_toNat (id : MsgId) : (id.extractLsb' 3 8).toNat = id.toNat / 8 := by
  have := id.isLt
  rw [BitVec.extractLsb'_toNat, Nat.shiftRight_eq_div_pow]
  omega

/-- Settles O19: the three bytes are those of `header`, and the last is their fold with the payload. -/
theorem packedMessageLayout : Obligations.PackedMessageLayout := by
  intro id cmd p fits
  have length : (BitVec.ofNat 8 p.length).toNat = p.length := Nat.mod_eq_of_lt (by omega)
  exact ⟨_, _, _, rfl, headerByte0_toNat id, headerByte1_toNat id cmd, length⟩

/-- A run that unpacks has a header and a trailer (42_message_layout.md R195). -/
theorem four_le_length_of_unpack {d : Bytes} {m : Message} (h : unpack d = .ok m) : 4 ≤ d.length := by
  by_contra short
  rw [unpack, if_pos (by omega)] at h
  cases h

/-- Everything that is known of a run that unpacks: its message is read off its header and its body. -/
theorem unpack_eq_ok {d : Bytes} {m : Message} (h : unpack d = .ok m) :
    ∃ b0 b1 len body trailer, d = b0 :: b1 :: len :: (body ++ [trailer]) ∧ len.toNat ≤ body.length ∧
      checksum (b0 :: b1 :: len :: body) = trailer ∧
      m = ⟨headerId b0 b1, headerCmd b1, len, body.take len.toNat⟩ := by
  obtain ⟨b0, b1, len, body, trailer, rfl⟩ := exists_header_of_length (four_le_length_of_unpack h)
  rw [unpack_header] at h
  split_ifs at h with truncated fold
  cases h
  exact ⟨b0, b1, len, body, trailer, rfl, Nat.not_lt.mp truncated, fold, rfl⟩

/-- Settles O22: the message of a run that unpacks is made of `headerCmd` and `headerId`, whose values are those of R103
and R104. -/
theorem unpackedFieldsOfHeader : Obligations.UnpackedFieldsOfHeader := by
  intro b0 b1 b2 rest m h
  obtain ⟨_, _, _, _, _, run, -, -, rfl⟩ := unpack_eq_ok h
  cases run
  exact ⟨headerCmd_setWidth b1, headerId_toNat b0 b1, rfl⟩

end Sys2Proof.Machine
end

section
/-! PROOFS. 30_encoding.md R114: APPEND's transactions and what becomes of its chunk (43_intake_flow.md R215, R216). -/

namespace Sys2Proof.Machine

open Sys2Proof

/-- A command byte whose operands are `LEN16 DATA` has the transactions of R113. -/
theorem dataForm_of_decode {c : Byte} {mk : Bytes → Instr} (h : ∀ x, decode (c :: x) = decodeData mk x) :
    DataForm c mk := by
  intro hi lo data length
  rw [h, decodeData_cons_cons, if_pos length]

/-- A reply after the flow evaluation adds to the replies, and goes to the issuer, from before it. -/
theorem reply_flowEval (c : ResultCode) (d : Bytes) (s : State) :
    reply c d (flowEval s) = { flowEval s with replies := s.replies ++ [⟨s.issuer, c, d⟩] } := by
  simp only [reply, flowEval_replies, flowEval_issuer]

/-- Settles O26: on an instance APPEND is `appendChunk`, whose three branches are the three clauses. -/
theorem appendAcceptsOrOverflows : Obligations.AppendAcceptsOrOverflows := by
  refine ⟨dataForm_of_decode fun _ => rfl, fun chunk s legal => ?_⟩
  rw [exec_eq, onInstance_of_legal _ legal, effect]
  refine ⟨fun empty => ?_, fun nonempty fits => ?_, fun nonempty full => ?_⟩
  · rw [appendChunk, if_pos empty]
    rfl
  · have fits : ¬ s.cfg.capacity < occ s + chunk.length := Nat.not_lt.mpr fits
    rw [appendChunk, if_neg nonempty, if_neg fits, reply_flowEval]
    rfl
  · have full : s.cfg.capacity < occ s + chunk.length := full
    rw [appendChunk, if_neg nonempty, if_pos full, reply_flowEval]
    rfl

end Sys2Proof.Machine
end

section
/-! PROOFS. 30_encoding.md R117, R122: READ_STATUS and the status registers (44_transmit_control.md R270). -/

namespace Sys2Proof.Machine

open Sys2Proof

/-- The values of the status registers, in the order of their numbers. -/
def statusWords (s : State) : List Word32 :=
  [BitVec.ofNat 32 (occ s), flowWord s, s.cnt.checksumMismatch, s.cnt.frameCorrupt, s.cnt.truncatedMessage,
    s.cnt.bufferOverflow, BitVec.ofNat 32 s.cfg.capacity, BitVec.ofNat 32 s.cfg.highWatermark,
    BitVec.ofNat 32 s.cfg.lowWatermark, BitVec.ofNat 32 s.cfg.maxPayload]

/-- A register's number is its place among the values, and a reserved number is past their end. -/
theorem statusValue_eq_getElem? (reg : Byte) (s : State) : statusValue reg s = (statusWords s)[reg.toNat]? := by
  rw [statusValue]
  match reg.toNat with
  | 0 | 1 | 2 | 3 | 4 | 5 | 6 | 7 | 8 | 9 => rfl
  | _ + 10 => rfl

/-- The FLOW register as a number: `LINE` in bit 1, `PAUSED` in bit 0. -/
theorem flowWord_toNat (s : State) :
    (flowWord s).toNat = (if s.fcLine then 2 else 0) + (if s.flow = .paused then 1 else 0) := by
  rw [flowWord]
  cases s.fcLine <;> split <;> rfl

/-- Where the FIFO is within its capacity, 32 bits hold every register's value (10_state.md R32, 00_scope.md R7). -/
theorem statusWords_toNat {s : State} (legal : s.cfg.Legal) (bound : s.OccWithinCapacity) :
    (statusWords s).map BitVec.toNat =
      [s.fifo.length, (if s.fcLine then 2 else 0) + (if s.flow = .paused then 1 else 0),
        s.cnt.checksumMismatch.toNat, s.cnt.frameCorrupt.toNat, s.cnt.truncatedMessage.toNat,
        s.cnt.bufferOverflow.toNat, s.cfg.capacity, s.cfg.highWatermark, s.cfg.lowWatermark,
        s.cfg.maxPayload] := by
  have holds {n : Nat} (h : n ≤ s.cfg.capacity) : n % 2 ^ 32 = n := Nat.mod_eq_of_lt (by omega)
  have fifo : s.fifo.length % 2 ^ 32 = s.fifo.length := holds bound
  obtain ⟨_, _, low, high, payload⟩ := legal
  simp only [statusWords, List.map_cons, List.map_nil, BitVec.toNat_ofNat, flowWord_toNat, occ, fifo, holds le_rfl,
    holds high, holds (low.le.trans high), Nat.mod_eq_of_lt (show s.cfg.maxPayload < 2 ^ 32 by omega)]

/-- Settles O36: a register below 0x0A is a value of `statusWords`, whose number the four bytes spell. -/
theorem readStatusReturnsRegister : Obligations.ReadStatusReturnsRegister := by
  refine ⟨fun reg defined => if_pos defined, fun reg s legal bound => ?_⟩
  rw [← statusWords_toNat legal bound, exec_eq, onInstance_of_legal _ legal, effect, statusValue_eq_getElem?]
  refine ⟨fun v h => ?_, fun reserved => ?_⟩
  · rw [List.getElem?_map, Option.map_eq_some_iff] at h
    obtain ⟨w, found, rfl⟩ := h
    refine ⟨w.isLt, ?_⟩
    simp only [found, Laws.be32_bytes]
    rfl
  · rw [List.getElem?_eq_none (show (statusWords s).length ≤ reg.toNat from reserved)]
    rfl

end Sys2Proof.Machine
end

section
/-! PROOFS. 40_checksum.md R140 to R146: what CHECKSUM and VERIFY return. -/

namespace Sys2Proof.Machine

open Sys2Proof

/-- The empty sequence has no trailer (40_checksum.md R145). -/
@[simp] theorem verify_nil : verify [] = false := rfl

/-- Settles O6: on an instance CHECKSUM only replies, and its data byte is the fold. -/
theorem checksumReturnsXorFold : Obligations.ChecksumReturnsXorFold := by
  refine ⟨dataForm_of_decode fun _ => rfl, fun data s legal => ?_⟩
  rw [exec_eq, onInstance_of_legal _ legal]
  rfl

/-- Settles O7: on an instance VERIFY only replies, and `verify` compares the trailer with the fold of the bytes before
it. -/
theorem verifyComparesTrailer : Obligations.VerifyComparesTrailer := by
  refine ⟨dataForm_of_decode fun _ => rfl, fun s legal => ⟨fun init trailer => ?_, ?_⟩⟩
  · simp only [exec_eq, onInstance_of_legal _ legal, effect, verify_concat, decide_eq_true_eq]
    rfl
  · rw [exec_eq, onInstance_of_legal _ legal, effect, verify_nil]
    rfl

end Sys2Proof.Machine
end

section
/-! PROOFS. 41_frame_codec.md R162, R163: the encoder's loop and what COBS_ENCODE returns. -/

namespace Sys2Proof.Machine

open Sys2Proof

/-- One turn of the loop of `cobs_groups` on `out`, `run` and `full` (41_frame_codec.md R162). -/
def encodeTurn (st : Bytes × Bytes × Bool) (b : Byte) : Bytes × Bytes × Bool :=
  if b = 0x00#8 then (st.1 ++ [BitVec.ofNat 8 (st.2.1.length + 1)] ++ st.2.1, [], false)
  else if (st.2.1 ++ [b]).length = 254 then (st.1 ++ [0xFF#8] ++ (st.2.1 ++ [b]), [], true)
  else (st.1, st.2.1 ++ [b], false)

/-- What `cobs_groups` does after the last byte: one more group, unless a full one was just closed (R162). -/
def encodeEnd (st : Bytes × Bytes × Bool) : Bytes :=
  if st.2.2 then st.1 else st.1 ++ [BitVec.ofNat 8 (st.2.1.length + 1)] ++ st.2.1

/-- The loop adds to `out` what `cobsGroupsFrom` still appends, whatever `run` and `full` it starts with. -/
theorem encodeEnd_foldl_encodeTurn (x out run : Bytes) (full : Bool) :
    encodeEnd (x.foldl encodeTurn (out, run, full)) = out ++ cobsGroupsFrom run full x := by
  induction x generalizing out run full with
  | nil => cases full <;> simp [encodeEnd, cobsGroupsFrom, shortGroup]
  | cons b rest ih =>
    rw [List.foldl_cons, encodeTurn, cobsGroupsFrom]
    split_ifs <;> simp [ih, shortGroup]

/-- Settles O11: the loop starts with nothing written, nothing pending and no full group closed. -/
theorem encoderFollowsPseudocode : Obligations.EncoderFollowsPseudocode :=
  fun x => (encodeEnd_foldl_encodeTurn x [] [] false).symm

/-- `LEN16` is the number of bytes that follow it wherever 16 bits hold that number. -/
theorem len16_toNat {data : Bytes} (fits : data.length ≤ 65535) : (len16 data).toNat = data.length := by
  rw [len16, if_pos fits]
  exact Nat.mod_eq_of_lt (by omega)

/-- Settles O12: on an instance COBS_ENCODE only replies, and the two bytes before the frame are those of `LEN16`. -/
theorem cobsEncodeReturnsFrame : Obligations.CobsEncodeReturnsFrame := by
  refine ⟨dataForm_of_decode fun _ => rfl, fun x s legal =>
    ⟨(len16 (cobsFrame x)).extractLsb' 8 8, (len16 (cobsFrame x)).extractLsb' 0 8, ?_, fun fits => ?_⟩⟩
  · rw [exec_eq, onInstance_of_legal _ legal]
    rfl
  · rw [← Laws.ofBe16_toNat, Laws.ofBe16_be16]
    exact len16_toNat fits

end Sys2Proof.Machine
end

section
/-! PROOFS. 41_frame_codec.md R170, R172: the run decoder's turns and the runs it cannot decode. -/

namespace Sys2Proof.Machine

open Sys2Proof

/-- A code byte is not zero, so a group takes at least its code byte (30_encoding.md R108). -/
theorem toNat_pos_of_zero_notMem {k : Byte} {rest : Bytes} (noZero : 0x00#8 ∉ k :: rest) : 0 < k.toNat := by
  have notZero : k ≠ 0#8 := fun zero => noZero (zero ▸ List.mem_cons_self)
  exact Nat.pos_of_ne_zero fun zero => notZero (BitVec.eq_of_toNat_eq zero)

/-- Settles O14: `cobsDecodeRun_cons` counts a group's bytes from behind its code byte, the rule from the code byte
on. -/
theorem runDecoderFollowsPseudocode : Obligations.RunDecoderFollowsPseudocode := by
  refine ⟨rfl, fun k rest noZero => ?_⟩
  have positive := toNat_pos_of_zero_notMem noZero
  have ends : rest.drop (k.toNat - 1) = [] ↔ rest.length ≤ k.toNat - 1 := List.drop_eq_nil_iff
  rw [cobsDecodeRun_cons, List.length_cons]
  obtain overruns | meets | goesOn := lt_trichotomy (rest.length + 1) k.toNat
  · rw [if_pos (by omega), if_pos overruns]
  · rw [if_neg (by omega), if_pos (ends.mpr (by omega)), if_neg (by omega), if_pos meets.symm,
      List.take_of_length_le (by omega)]
  · have notFull : k = 0xFF#8 ↔ ¬ k.toNat < 0xFF := by
      rw [← BitVec.toNat_inj, BitVec.toNat_ofNat]
      omega
    rw [if_neg (by omega), if_neg (by rw [ends]; omega), if_neg goesOn.not_gt, if_neg goesOn.ne,
      List.drop_cons positive]
    simp only [notFull, ite_not, List.append_assoc]

/-- A run is corrupt in its first group, or behind it. -/
theorem cobsDecodeRun_cons_eq_none {k : Byte} {rest : Bytes} (noZero : 0x00#8 ∉ k :: rest) :
    cobsDecodeRun (k :: rest) = none ↔ (k :: rest).length < k.toNat ∨
      k.toNat < (k :: rest).length ∧ cobsDecodeRun ((k :: rest).drop k.toNat) = none := by
  rw [runDecoderFollowsPseudocode.2 k rest noZero]
  obtain past | meets | goesOn := lt_trichotomy (k :: rest).length k.toNat
  · rw [if_pos past]
    exact iff_of_true rfl (.inl past)
  · rw [if_neg meets.not_lt, if_pos meets.symm]
    exact iff_of_false nofun (by omega)
  · rw [if_neg goesOn.not_gt, if_neg goesOn.ne, Option.map_eq_none_iff, or_iff_right goesOn.not_gt,
      and_iff_right goesOn]

/-- Positions reached from a code byte are reached from the start of the run. -/
theorem CodeAt.add {f : Bytes} {i j : Nat} (hi : CodeAt f i) (hj : CodeAt (f.drop i) j) : CodeAt f (i + j) := by
  induction hj with
  | first => exact hi
  | next j k _ code inside ih =>
    rw [List.getElem?_drop] at code
    rw [List.length_drop] at inside
    rw [← Nat.add_assoc]
    exact .next _ k ih code (by omega)

/-- A code byte of a run is its first byte, or a code byte of what follows the first group. -/
theorem CodeAt.eq_zero_or_behind {k : Byte} {rest : Bytes} {i : Nat} (h : CodeAt (k :: rest) i) :
    i = 0 ∨ k.toNat < (k :: rest).length ∧ ∃ j, i = k.toNat + j ∧ CodeAt ((k :: rest).drop k.toNat) j := by
  induction h with
  | first => exact .inl rfl
  | next i l _ code inside ih =>
    refine .inr ?_
    obtain rfl | ⟨goesOn, j, rfl, hj⟩ := ih
    · cases code
      rw [Nat.zero_add] at inside ⊢
      exact ⟨inside, 0, rfl, .first (by simpa using inside)⟩
    · refine ⟨goesOn, j + l.toNat, Nat.add_assoc _ _ _, .next j l hj ?_ ?_⟩
      · rwa [List.getElem?_drop]
      · rw [List.length_drop]
        omega

/-- Some group of the run, reached group by group, reaches past its end (41_frame_codec.md R172). -/
def Overruns (f : Bytes) : Prop := ∃ i k, CodeAt f i ∧ f[i]? = some k ∧ f.length < i + k.toNat

/-- A run overruns in its first group, or behind it. -/
theorem overruns_cons (k : Byte) (rest : Bytes) :
    Overruns (k :: rest) ↔ (k :: rest).length < k.toNat ∨
      k.toNat < (k :: rest).length ∧ Overruns ((k :: rest).drop k.toNat) := by
  constructor
  · rintro ⟨i, l, hi, code, past⟩
    obtain rfl | ⟨goesOn, j, rfl, hj⟩ := hi.eq_zero_or_behind
    · cases code
      exact .inl (by omega)
    · refine .inr ⟨goesOn, j, l, hj, ?_, ?_⟩
      · rwa [List.getElem?_drop]
      · rw [List.length_drop]
        omega
  · have first : CodeAt (k :: rest) 0 := .first (List.cons_ne_nil _ _)
    rintro (past | ⟨goesOn, j, l, hj, code, past⟩)
    · exact ⟨0, k, first, rfl, by omega⟩
    · have second : CodeAt (k :: rest) k.toNat := by simpa using first.next 0 k rfl (by omega)
      rw [List.getElem?_drop] at code
      rw [List.length_drop] at past
      exact ⟨k.toNat + j, l, second.add hj, code, by omega⟩

/-- A run is corrupt exactly when it has no group or one overruns; by induction on its length, since each turn of the
decoder leaves a shorter run. -/
theorem cobsDecodeRun_eq_none {f : Bytes} (noZero : 0x00#8 ∉ f) :
    cobsDecodeRun f = none ↔ f = [] ∨ Overruns f := by
  induction hn : f.length using Nat.strong_induction_on generalizing f with
  | _ n ih =>
    cases f with
    | nil => exact iff_of_true rfl (.inl rfl)
    | cons k rest =>
      have shorter : ((k :: rest).drop k.toNat).length < n := by
        rw [List.length_drop, ← hn]
        exact Nat.sub_lt (Nat.succ_pos _) (toNat_pos_of_zero_notMem noZero)
      have behind (goesOn : k.toNat < (k :: rest).length) :
          cobsDecodeRun ((k :: rest).drop k.toNat) = none ↔ Overruns ((k :: rest).drop k.toNat) := by
        rw [ih _ shorter (fun zero => noZero (List.mem_of_mem_drop zero)) rfl, or_iff_right]
        rw [List.drop_eq_nil_iff]
        omega
      rw [cobsDecodeRun_cons_eq_none noZero, overruns_cons, and_congr_right behind,
        or_iff_right (List.cons_ne_nil k rest)]

/-- Settles O15: `Overruns` is the second case of the rule. -/
theorem corruptExactlyWhenGroupOverrunsOrEmpty : Obligations.CorruptExactlyWhenGroupOverrunsOrEmpty :=
  fun _ => cobsDecodeRun_eq_none

end Sys2Proof.Machine
end

section
/-! PROOFS. 41_frame_codec.md R171: what COBS_DECODE returns. -/

namespace Sys2Proof.Machine

open Sys2Proof

/-- Settles O16: `first0` finds the end of the run, whatever follows its terminator. -/
theorem cobsDecodeReturnsRun : Obligations.CobsDecodeReturnsRun := by
  refine ⟨dataForm_of_decode fun _ => rfl, fun s legal => ⟨fun data noZero => ?_,
    fun run rest noZero fits corrupt => ?_, fun run rest r noZero fits decoded => ?_⟩⟩
  · simp only [exec_eq, onInstance_of_legal _ legal, effect, first0_eq_none.mpr noZero]
    rfl
  · rw [List.length_append, List.length_cons] at fits
    simp only [exec_eq, onInstance_of_legal _ legal, effect, first0_append_zero noZero, List.take_left, corrupt,
      consumed16_of_le (show run.length + 1 ≤ 65535 by omega)]
    rfl
  · rw [List.length_append, List.length_cons] at fits
    have shorter := length_of_cobsDecodeRun decoded
    simp only [exec_eq, onInstance_of_legal _ legal, effect, first0_append_zero noZero, List.take_left, decoded,
      consumed16_of_le (show run.length + 1 ≤ 65535 by omega), lenData_of_le (show r.length ≤ 65535 by omega)]
    rfl

end Sys2Proof.Machine
end

section
/-! PROOFS. 42_message_layout.md R191 to R199: what PACK and UNPACK return. -/

namespace Sys2Proof.Machine

open Sys2Proof

/-- Operands whose length is right and whose reserved bits are zero spell the message they carry (30_encoding.md
R113). -/
theorem decodeMessage_of_valid (mk : MsgId → MsgCmd → Bytes → Instr) {i1 i2 cm len : Byte} {p : Bytes}
    (length : p.length = len.toNat) (idFits : i1.toNat < 8) (cmdFits : cm.toNat < 32) :
    decodeMessage mk (i1 :: i2 :: cm :: len :: p) =
      .ok (mk (BitVec.ofNat 11 (i1.toNat * 256 + i2.toNat)) (BitVec.ofNat 5 cm.toNat) p) := by
  have unreserved : ¬ ((ofBe16 i1 i2).extractLsb' 11 5 ≠ 0#5 ∨ cm.extractLsb' 5 3 ≠ 0#3) := by
    rw [id16_reserved_iff, cmd8_reserved_iff]
    omega
  rw [decodeMessage, if_neg (not_not_intro length), if_neg unreserved, ← Laws.ofBe16_toNat]
  simp only [BitVec.ofNat_toNat, BitVec.setWidth_eq_extractLsb' (show 11 ≤ 16 by decide),
    BitVec.setWidth_eq_extractLsb' (show 5 ≤ 8 by decide)]

/-- A command byte whose operands are `ID16 CMD8 LEN8 PAYLOAD` has the transactions of R113. -/
theorem messageForm_of_decode {c : Byte} {mk : MsgId → MsgCmd → Bytes → Instr}
    (h : ∀ x, decode (c :: x) = decodeMessage mk x) : MessageForm c mk := by
  intro idHi idLo cmd len payload length idFits cmdFits
  rw [h, decodeMessage_of_valid mk length idFits cmdFits]

/-- Settles O20: on an instance PACK only replies, and a payload it accepts makes a run whose length 16 bits hold. -/
theorem packReturnsMessageRun : Obligations.PackReturnsMessageRun := by
  refine ⟨messageForm_of_decode fun _ => rfl, fun id cmd p s legal => ?_⟩
  rw [exec_eq, onInstance_of_legal _ legal, effect]
  by_cases tooLong : s.cfg.maxPayload < p.length
  · rw [if_pos tooLong, if_pos tooLong]
    rfl
  · obtain ⟨-, -, -, -, payload⟩ := legal
    have fits : (pack id cmd p).length ≤ 65535 := by
      rw [pack_length]
      omega
    rw [if_neg tooLong, if_neg tooLong, lenData_of_le fits, pack_length]
    rfl

/-- Fewer than four bytes hold no header and trailer (42_message_layout.md R195). -/
theorem unpack_of_length_lt {d : Bytes} (short : d.length < 4) : unpack d = .error .truncatedMessage := if_pos short

/-- The result data of a message read off a header: `ID16`, `CMD8` and `LEN8` by the header's bytes. -/
theorem messageData_of_header (b0 b1 len : Byte) (p : Bytes) :
    messageData ⟨headerId b0 b1, headerCmd b1, len, p⟩ =
      [BitVec.ofNat 8 ((b0.toNat * 8 + b1.toNat / 32) / 256), BitVec.ofNat 8 (b0.toNat * 8 + b1.toNat / 32),
        b1 &&& 0x1F#8, len] ++ p := by
  rw [messageData, Laws.be16_bytes, BitVec.toNat_setWidth_of_le (by decide), headerId_toNat, headerCmd_setWidth]
  rfl

/-- Settles O23: on an instance UNPACK only replies, and its reply is the branch `unpack_header` takes: the lengths
first, then the fold. -/
theorem unpackChecksThenSplits : Obligations.UnpackChecksThenSplits := by
  refine ⟨dataForm_of_decode fun _ => rfl, fun s legal => ⟨fun data short => ?_, fun b0 b1 len body trailer => ?_⟩⟩
  · rw [exec_eq, onInstance_of_legal _ legal, effect, unpack_of_length_lt short]
    rfl
  · rw [exec_eq, onInstance_of_legal _ legal, effect, unpack_header, ← checksum]
    by_cases truncated : body.length < len.toNat
    · rw [if_pos truncated, if_pos truncated]
      rfl
    rw [if_neg truncated, if_neg truncated]
    by_cases fold : checksum (b0 :: b1 :: len :: body) = trailer
    · rw [if_pos fold, if_neg (not_not_intro fold), ← messageData_of_header]
      rfl
    · rw [if_neg fold, if_pos fold]
      rfl

end Sys2Proof.Machine
end

section
/-! PROOFS. 43_intake_flow.md R210, R211: the flow evaluation and the events it emits. -/

namespace Sys2Proof.Machine

open Sys2Proof

/-- Settles O25: the guards of the two transitions exclude each other by the flow, and each clause is one outcome of
them. -/
theorem flowEvaluationTransitions : Obligations.FlowEvaluationTransitions := by
  intro s
  have exclusive (paused : s.flow = .paused) : s.flow ≠ .flowing := by simp [paused]
  refine ⟨fun flowing high => ?_, fun paused low => ?_, fun flowing below => ?_, fun paused above => ?_⟩
  · exact if_pos ⟨flowing, high⟩
  · rw [flowEval, if_neg fun pauses => exclusive paused pauses.1, if_pos ⟨paused, low⟩]
    rfl
  · rw [flowEval, if_neg fun pauses => below.not_ge pauses.2, if_neg fun resumes => exclusive resumes.1 flowing]
  · rw [flowEval, if_neg fun pauses => exclusive paused pauses.1, if_neg fun resumes => above.not_ge resumes.2]

/-- The flow evaluation appends nothing but `FlowSet` events. -/
theorem flowEval_hist_flowSets (s : State) : ∃ sets : List Bool, (flowEval s).hist = s.hist ++ sets.map .flowSet := by
  obtain ⟨-, -, e⟩ | ⟨-, -, e⟩ | ⟨-, -, e⟩ := flowEval_cases s <;> rw [e]
  · exact ⟨[false], rfl⟩
  · exact ⟨[true], rfl⟩
  · exact ⟨[], (List.append_nil _).symm⟩

/-- Settles O29: an overflow counts before the flow evaluation, and a frame has its fate after it. -/
theorem eventOrderInsideStep : Obligations.EventOrderInsideStep := by
  refine ⟨fun chunk s t nonempty full h => ?_, fun s t waits h => ?_⟩
  · obtain ⟨legal, -⟩ := exec_eq_next.mp h
    obtain ⟨-, -, overflows⟩ := appendAcceptsOrOverflows.2 chunk s legal
    cases (overflows nonempty full).symm.trans h
    exact flowEval_hist_flowSets _
  · obtain ⟨-, rfl⟩ := exec_eq_next.mp h
    obtain ⟨noZero, -⟩ | ⟨run, rest, -, -, fate⟩ := takeFrame_cases s
    · exact absurd waits noZero
    · obtain ⟨sets, hist⟩ := flowEval_hist_flowSets (setFifo rest s)
      obtain ⟨k, dropped, e⟩ | ⟨m, -, e⟩ := fate
      · exact ⟨sets, .error k, by simp [effect, e, hist], by simpa using receive_error dropped⟩
      · exact ⟨sets, .dispatch m, by simp [effect, e, hist], .inl ⟨m, rfl⟩⟩

end Sys2Proof.Machine
end

section
/-! PROOFS. 43_intake_flow.md R220, R226: TAKE_FRAME, by the run before the first 0x00. -/

namespace Sys2Proof.Machine

open Sys2Proof

/-- A TAKE_FRAME of PROC is enabled exactly where the FIFO holds a 0x00 (10_state.md R41). -/
theorem enabled_proc_takeFrame (s : State) : enabled .proc .takeFrame s = true ↔ 0x00#8 ∈ s.fifo := by
  rw [enabled, Option.isSome_iff_ne_none, Ne, first0_eq_none, not_not]

/-- Without a 0x00 TAKE_FRAME only replies (43_intake_flow.md R226). -/
theorem takeFrame_of_zero_notMem {s : State} (noZero : 0x00#8 ∉ s.fifo) :
    takeFrame s = reply .noTerminator [] s := by
  rw [takeFrame, first0_eq_none.mpr noZero]

section
variable {s : State} {run rest : Bytes} (noZero : 0x00#8 ∉ run) (split : s.fifo = run ++ 0x00#8 :: rest)
include noZero split

/-- A run that is an error is removed and counted (43_intake_flow.md R220). -/
theorem takeFrame_of_receive_error {k : ErrorKind} (fate : receive run = .error k) :
    takeFrame s = { flowEval (setFifo rest s) with
      cnt := s.cnt.bump k
      hist := (flowEval (setFifo rest s)).hist ++ [.error k]
      replies := s.replies ++ [⟨s.issuer, k.code, []⟩] } := by
  simp [takeFrame, split, first0_append_zero noZero, fate, reply, count, emit]

/-- A run that is a message is removed and dispatched (43_intake_flow.md R220). -/
theorem takeFrame_of_receive_ok {m : Message} (fate : receive run = .ok m) :
    takeFrame s = { flowEval (setFifo rest s) with
      hist := (flowEval (setFifo rest s)).hist ++ [.dispatch m]
      replies := s.replies ++ [⟨s.issuer, .ok, []⟩] } := by
  simp [takeFrame, split, first0_append_zero noZero, fate, reply, emit]

end

/-- Settles O28: on an instance TAKE_FRAME is `takeFrame`, and `receive` is decoding the run and unpacking the
result. -/
theorem takeFrameProcessesOneFrame : Obligations.TakeFrameProcessesOneFrame := by
  refine ⟨rfl, fun s legal noZero => ⟨?_, ?_⟩, fun run rest s legal noZero split => ⟨?_, ?_⟩⟩
  · rw [Bool.eq_false_iff, Ne, enabled_proc_takeFrame]
    exact noZero
  · rw [exec_eq, onInstance_of_legal _ legal, effect, takeFrame_of_zero_notMem noZero]
    rfl
  · rw [enabled_proc_takeFrame, split]
    exact List.mem_append_right run List.mem_cons_self
  · rw [exec_eq, onInstance_of_legal _ legal, effect]
    cases decoded : cobsDecodeRun run with
    | none =>
      have fate : receive run = .error .frameCorrupt := by rw [receive, decoded]
      rw [takeFrame_of_receive_error noZero split fate]
      rfl
    | some r =>
      have fate : receive run = unpack r := by rw [receive, decoded]
      cases unpacked : unpack r with
      | ok m =>
        simp only [takeFrame_of_receive_ok noZero split (fate.trans unpacked), unpacked]
        rfl
      | error k =>
        simp only [takeFrame_of_receive_error noZero split (fate.trans unpacked), unpacked]
        obtain rfl | rfl := unpack_error unpacked
        · rfl
        · rfl

end Sys2Proof.Machine
end

section
/-! PROOFS. 44_transmit_control.md R251 to R264: WRITE and RESET. -/

namespace Sys2Proof.Machine

open Sys2Proof

/-- Settles O4: on an instance RESET empties the FIFO, drives the line whatever the flow was, and clears the counters. -/
theorem resetRestoresInitialState : Obligations.ResetRestoresInitialState := by
  refine ⟨rfl, fun s legal => ?_⟩
  rw [exec_eq, onInstance_of_legal _ legal]
  rfl

/-- Settles O34: on an instance only the payload's length decides whether WRITE transmits, and the frame it transmits is
the groups of the packed message and one terminator. -/
theorem writeTransmitsFrame : Obligations.WriteTransmitsFrame := by
  refine ⟨messageForm_of_decode fun _ => rfl, fun id cmd p s legal => ?_⟩
  rw [exec_eq, onInstance_of_legal _ legal, effect]
  refine ⟨fun fits => ?_, fun tooLong => ?_⟩
  · rw [if_neg (Nat.not_lt.mpr fits)]
    rfl
  · rw [if_pos tooLong]
    rfl

end Sys2Proof.Machine
end

section
/-! PROOFS. 60_exceptions.md R289, R290: no error stops the block, and a code that is not counted changes nothing. -/

namespace Sys2Proof.Machine

open Sys2Proof

/-- The one way a step stops is a configuration that breaks 00_scope.md R7, so on an instance it never does. -/
theorem exists_step_eq_next {s : State} (legal : s.cfg.Legal) : ∃ t, step s = .next t := by
  obtain ⟨illegal, -⟩ | ⟨-, -, idle⟩ | ⟨-, u, rest, -, issued⟩ := step_cases s
  · exact absurd legal illegal
  · exact ⟨_, idle⟩
  · obtain ⟨r, -, refused⟩ | ⟨i, -, -, passed⟩ | ⟨i, -, -, ran⟩ := issued
    · exact ⟨_, refused⟩
    · exact ⟨_, passed⟩
    · exact ⟨_, ran⟩

/-- Settles O46: on an instance a step and every operation answer a next state, and neither writes `cfg`. -/
theorem stepNeverHalts : Obligations.StepNeverHalts := by
  refine fun s legal => ⟨?_, fun i => ?_⟩
  · obtain ⟨t, next⟩ := exists_step_eq_next legal
    exact ⟨t, next, by rwa [step_cfg next]⟩
  · exact ⟨effect i s, exec_eq_next.mpr ⟨legal, rfl⟩, by rwa [effect_cfg]⟩

/-- `st`, `hist` and `tx` of `t` are those of `s` (60_exceptions.md R289). -/
abbrev Unchanged (s t : State) : Prop :=
  t.fifo = s.fifo ∧ t.flow = s.flow ∧ t.fcLine = s.fcLine ∧ t.cnt = s.cnt ∧ t.hist = s.hist ∧ t.tx = s.tx

/-- The four codes of the spec's own, which are never counted (60_exceptions.md R281). -/
def uncountedCodes : List ResultCode := [.payloadTooLong, .noTerminator, .illegalCommand, .illegalOperand]

/-- The code of a counted error is none of them. -/
theorem code_notMem_uncountedCodes (k : ErrorKind) : k.code ∉ uncountedCodes := by cases k <;> decide

/-- An operation changes nothing, or it is neither COBS_DECODE nor UNPACK and returns OK or the code of a counted
error. -/
theorem Acts.unchanged_or_notMem_uncountedCodes {s t : State} {i : Instr} (h : Acts s i t) :
    Unchanged s t ∨
    ((∀ data, i ≠ .cobsDecode data ∧ i ≠ .unpack data) ∧
      ∃ code data, code ∉ uncountedCodes ∧ t.replies = s.replies ++ [⟨s.issuer, code, data⟩]) := by
  cases h with
  | reset => exact .inr ⟨fun _ => ⟨nofun, nofun⟩, .ok, [], by decide, by simp⟩
  | overflow =>
    exact .inr ⟨fun _ => ⟨nofun, nofun⟩, .bufferOverflow, [], code_notMem_uncountedCodes .bufferOverflow, by simp⟩
  | enqueue => exact .inr ⟨fun _ => ⟨nofun, nofun⟩, .ok, [], by decide, by simp⟩
  | drop _ _ k => exact .inr ⟨fun _ => ⟨nofun, nofun⟩, k.code, [], code_notMem_uncountedCodes k, by simp⟩
  | dispatch => exact .inr ⟨fun _ => ⟨nofun, nofun⟩, .ok, [], by decide, by simp⟩
  | transmit => exact .inr ⟨fun _ => ⟨nofun, nofun⟩, .ok, [], by decide, by simp⟩
  | answer => exact .inl ⟨rfl, rfl, rfl, rfl, rfl, rfl⟩

/-- Settles O48: a step that ran no operation changes nothing, and an operation that changed something is not of the two
and returned none of the four codes. -/
theorem uncountedCodesChangeNothing : Obligations.UncountedCodesChangeNothing := by
  intro s t r h answered uncounted
  obtain ⟨_, _, _, rfl⟩ | ⟨u, rest, i, due, spells, -, ran⟩ := acts_of_step h
  · exact ⟨rfl, rfl, rfl, rfl, rfl, rfl⟩
  · obtain unchanged | ⟨other, code, data, counted, replied⟩ := ran.unchanged_or_notMem_uncountedCodes
    · exact unchanged
    · have isReply : r = ⟨u.agent, code, data⟩ := by simpa using answered.symm.trans replied
      obtain ⟨fits, waits, command, operand⟩ : code ≠ .payloadTooLong ∧ code ≠ .noTerminator ∧
          code ≠ .illegalCommand ∧ code ≠ .illegalOperand := by simpa [uncountedCodes] using counted
      subst isReply
      obtain c | c | c | c | ⟨u', rest', data', due', decodes | unpacks⟩ := uncounted
      · exact absurd c fits
      · exact absurd c waits
      · exact absurd c command
      · exact absurd c operand
      · cases due.symm.trans due'
        exact absurd (Except.ok.inj (spells.symm.trans decodes)) (other data').1
      · cases due.symm.trans due'
        exact absurd (Except.ok.inj (spells.symm.trans unpacks)) (other data').2

end Sys2Proof.Machine
end

section
/-! PROOFS. 70_reset_and_hazards.md R310: power-on. -/

namespace Sys2Proof.Machine

open Sys2Proof

/-- Settles O1: the values RESET leaves in `st` on every instance (R262) are those of power-on, so that a RESET run there
changes none of them. -/
theorem powerOnStateIsResetState : Obligations.PowerOnStateIsResetState := by
  intro c legal
  obtain ⟨-, resetEffect⟩ := resetRestoresInitialState
  exact ⟨powerOn_cfg c, powerOn_fifo c, powerOn_flow c, powerOn_fcLine c, powerOn_cnt c, powerOn_hist c, powerOn_tx c,
    _, resetEffect (State.powerOn c) legal, rfl, (powerOn_fifo c).symm, (powerOn_flow c).symm, (powerOn_fcLine c).symm,
    (powerOn_cnt c).symm⟩

end Sys2Proof.Machine
end

section
/-! PROOFS. 41_frame_codec.md sections 2 and 3: the groups of a sequence, and the round trip of the Frame Codec. The
encoder and the decoder are both read group by group: a group is `shortGroup t` of at most 254 bytes `t`, which for 254
bytes is the full group. -/

namespace Sys2Proof.Machine

open Sys2Proof

/-! ### The groups of a sequence (R162) -/

/-- A sequence is a short run, or a short run and its 0x00 before a sequence, or 254 bytes without a 0x00 before one:
the three ways the encoder closes its first group (41_frame_codec.md R162). -/
theorem exists_first_group (x : Bytes) :
    (0x00#8 ∉ x ∧ x.length < 254) ∨
    (∃ t y, 0x00#8 ∉ t ∧ t.length < 254 ∧ x = t ++ 0x00#8 :: y) ∨
    ∃ t y, 0x00#8 ∉ t ∧ t.length = 254 ∧ x = t ++ y := by
  by_cases zero : 0x00#8 ∈ x.take 254
  · obtain ⟨t, y, split, noZero⟩ := List.eq_append_cons_of_mem zero
    refine .inr (.inl ⟨t, y ++ x.drop 254, noZero, ?_, ?_⟩)
    · have := congrArg List.length split
      simp only [List.length_take, List.length_append, List.length_cons] at this
      omega
    · rw [← List.cons_append, ← List.append_assoc, ← split, List.take_append_drop]
  · obtain short | long := Nat.lt_or_ge x.length 254
    · rw [List.take_of_length_le short.le] at zero
      exact .inl ⟨zero, short⟩
    · exact .inr (.inr ⟨x.take 254, x.drop 254, zero, List.length_take_of_le long, (List.take_append_drop _ _).symm⟩)

/-- Induction over a sequence by the groups its encoding has. -/
theorem group_induction {P : Bytes → Prop} (last : ∀ t, 0x00#8 ∉ t → t.length < 254 → P t)
    (zero : ∀ t y, 0x00#8 ∉ t → t.length < 254 → P y → P (t ++ 0x00#8 :: y))
    (full : ∀ t y, 0x00#8 ∉ t → t.length = 254 → P y → P (t ++ y)) (x : Bytes) : P x := by
  induction hn : x.length using Nat.strong_induction_on generalizing x with
  | _ n ih =>
    obtain ⟨noZero, short⟩ | ⟨t, y, noZero, short, rfl⟩ | ⟨t, y, noZero, whole, rfl⟩ := exists_first_group x
    · exact last x noZero short
    · rw [List.length_append, List.length_cons] at hn
      exact zero t y noZero short (ih y.length (by omega) y rfl)
    · rw [List.length_append] at hn
      exact full t y noZero whole (ih y.length (by omega) y rfl)

/-- The full group is the group of 254 bytes. -/
theorem shortGroup_of_full {t : Bytes} (whole : t.length = 254) : shortGroup t = 0xFF#8 :: t := by
  rw [shortGroup, whole]

@[simp] theorem shortGroup_length (t : Bytes) : (shortGroup t).length = t.length + 1 := rfl

theorem zero_notMem_shortGroup {t : Bytes} (noZero : 0x00#8 ∉ t) (fits : t.length ≤ 254) : 0x00#8 ∉ shortGroup t := by
  have code : 0x00#8 ≠ BitVec.ofNat 8 (t.length + 1) := by
    rw [Ne, ← BitVec.toNat_inj, BitVec.toNat_ofNat, BitVec.toNat_ofNat]
    omega
  exact List.not_mem_cons_of_ne_of_not_mem code noZero

theorem cobsGroups_ne_nil (x : Bytes) : cobsGroups x ≠ [] := cobsGroupsFrom_ne_nil [] x

/-- 254 bytes alone are one full group, with no empty group after it. -/
theorem cobsGroups_of_full {t : Bytes} (noZero : 0x00#8 ∉ t) (whole : t.length = 254) :
    cobsGroups t = shortGroup t := by
  have groups := cobsGroups_append_full [] noZero whole
  rwa [if_pos rfl, List.append_nil, List.append_nil, ← shortGroup_of_full whole] at groups

/-- 254 bytes before others are one full group before the groups of those. -/
theorem cobsGroups_full_append {t y : Bytes} (noZero : 0x00#8 ∉ t) (whole : t.length = 254) (more : y ≠ []) :
    cobsGroups (t ++ y) = shortGroup t ++ cobsGroups y := by
  rw [cobsGroups_append_full y noZero whole, if_neg more, ← shortGroup_of_full whole]

/-- No group holds a 0x00 (41_frame_codec.md section 2). -/
theorem zero_notMem_cobsGroups (x : Bytes) : 0x00#8 ∉ cobsGroups x := by
  induction x using group_induction with
  | last t noZero short =>
    rw [cobsGroups_last noZero short]
    exact zero_notMem_shortGroup noZero short.le
  | zero t y noZero short ih =>
    rw [cobsGroups_append_zero y noZero short, List.mem_append, not_or]
    exact ⟨zero_notMem_shortGroup noZero short.le, ih⟩
  | full t y noZero whole ih =>
    by_cases more : y = []
    · rw [more, List.append_nil, cobsGroups_of_full noZero whole]
      exact zero_notMem_shortGroup noZero whole.le
    · rw [cobsGroups_full_append noZero whole more, List.mem_append, not_or]
      exact ⟨zero_notMem_shortGroup noZero whole.le, ih⟩

/-- The groups of a sequence are between one code byte and one for every 254 bytes begun longer than it, and that many
without a 0x00 (41_frame_codec.md section 2). -/
theorem cobsGroups_length_bounds (x : Bytes) :
    x.length + 1 ≤ (cobsGroups x).length ∧
    (cobsGroups x).length ≤ x.length + max 1 ((x.length + 253) / 254) ∧
    (0x00#8 ∉ x → (cobsGroups x).length = x.length + max 1 ((x.length + 253) / 254)) := by
  induction x using group_induction with
  | last t noZero short =>
    rw [cobsGroups_last noZero short, shortGroup_length]
    omega
  | zero t y noZero short ih =>
    have holdsZero : 0x00#8 ∈ t ++ 0x00#8 :: y := List.mem_append_right t List.mem_cons_self
    rw [cobsGroups_append_zero y noZero short]
    simp only [List.length_append, List.length_cons, shortGroup_length, holdsZero, not_true_eq_false, false_imp_iff,
      and_true]
    omega
  | full t y noZero whole ih =>
    by_cases more : y = []
    · rw [more, List.append_nil, cobsGroups_of_full noZero whole, shortGroup_length]
      omega
    · have positive : 0 < y.length := List.length_pos_iff.mpr more
      rw [cobsGroups_full_append noZero whole more]
      simp only [List.length_append, shortGroup_length, List.mem_append, not_or]
      obtain ⟨lower, upper, reached⟩ := ih
      refine ⟨by omega, by omega, fun free => ?_⟩
      have := reached free.2
      omega

/-- Settles O13: group by group, the encoder adds one code byte for at most 254 bytes. -/
theorem encoderOutputShape : Obligations.EncoderOutputShape :=
  fun x => ⟨zero_notMem_cobsGroups x, cobsGroups_ne_nil x, cobsGroups_length_bounds x⟩

/-! ### The round trip (R170) -/

/-- What the decoder makes of one group before others: its bytes, and the 0x00 they stand for unless the group is full
(41_frame_codec.md R170). -/
def decodedGroup (t : Bytes) : Bytes := t ++ if t.length = 254 then [] else [0x00#8]

/-- The decoder reads the last group as its bytes (41_frame_codec.md R170). -/
theorem cobsDecodeRun_shortGroup {t : Bytes} (fits : t.length ≤ 254) : cobsDecodeRun (shortGroup t) = some t := by
  have data : (BitVec.ofNat 8 (t.length + 1)).toNat - 1 = t.length := by
    rw [BitVec.toNat_ofNat]
    omega
  rw [shortGroup, cobsDecodeRun_cons, data, if_neg (Nat.lt_irrefl _), List.drop_length, if_pos rfl, List.take_length]

/-- The decoder reads a group before others as `decodedGroup` (41_frame_codec.md R170). -/
theorem cobsDecodeRun_shortGroup_append {t rest : Bytes} (fits : t.length ≤ 254) (more : rest ≠ []) :
    cobsDecodeRun (shortGroup t ++ rest) = (cobsDecodeRun rest).map (decodedGroup t ++ ·) := by
  have data : (BitVec.ofNat 8 (t.length + 1)).toNat - 1 = t.length := by
    rw [BitVec.toNat_ofNat]
    omega
  have isFull : BitVec.ofNat 8 (t.length + 1) = 0xFF#8 ↔ t.length = 254 := by
    rw [← BitVec.toNat_inj, BitVec.toNat_ofNat, BitVec.toNat_ofNat]
    omega
  rw [shortGroup, List.cons_append, cobsDecodeRun_cons, data, if_neg (by simp), List.drop_left, if_neg more,
    List.take_left]
  simp only [isFull, decodedGroup]

theorem decodedGroup_of_short {t : Bytes} (short : t.length < 254) : decodedGroup t = t ++ [0x00#8] := by
  rw [decodedGroup, if_neg short.ne]

theorem decodedGroup_of_full {t : Bytes} (whole : t.length = 254) : decodedGroup t = t := by
  rw [decodedGroup, if_pos whole, List.append_nil]

/-- Decoding the groups of a sequence gives it back (41_frame_codec.md section 3). -/
theorem cobsDecodeRun_cobsGroups (x : Bytes) : cobsDecodeRun (cobsGroups x) = some x := by
  induction x using group_induction with
  | last t noZero short => rw [cobsGroups_last noZero short, cobsDecodeRun_shortGroup short.le]
  | zero t y noZero short ih =>
    rw [cobsGroups_append_zero y noZero short, cobsDecodeRun_shortGroup_append short.le (cobsGroups_ne_nil y), ih,
      decodedGroup_of_short short]
    simp
  | full t y noZero whole ih =>
    by_cases more : y = []
    · rw [more, List.append_nil, cobsGroups_of_full noZero whole, cobsDecodeRun_shortGroup whole.le]
    · rw [cobsGroups_full_append noZero whole more, cobsDecodeRun_shortGroup_append whole.le (cobsGroups_ne_nil y), ih,
        decodedGroup_of_full whole]
      rfl

/-- Settles O17: the groups hold no 0x00, so COBS_DECODE cuts them at their own terminator and decodes all of them. -/
theorem decodeOfEncodeIsIdentity : Obligations.DecodeOfEncodeIsIdentity := by
  refine fun x => ⟨cobsDecodeRun_cobsGroups x, fun s legal fits => ?_⟩
  obtain ⟨-, decodes⟩ := cobsDecodeReturnsRun
  obtain ⟨-, -, valid⟩ := decodes s legal
  exact valid (cobsGroups x) [] x (zero_notMem_cobsGroups x) (by simpa using fits) (cobsDecodeRun_cobsGroups x)

/-! ### The runs the encoder never produces (section 3) -/

theorem partialFrameFrom_append (run x y : Bytes) :
    partialFrameFrom run (x ++ y) = partialFrameFrom (partialFrameFrom run x) y := by
  induction x generalizing run with
  | nil => rfl
  | cons b x ih =>
    simp only [List.cons_append, partialFrameFrom]
    split_ifs
    · exact ih []
    · exact ih (run ++ [b])

theorem partialFrameFrom_of_zero_notMem {x : Bytes} (noZero : 0x00#8 ∉ x) (run : Bytes) :
    partialFrameFrom run x = run ++ x := by
  induction x generalizing run with
  | nil => rw [partialFrameFrom, List.append_nil]
  | cons b x ih =>
    obtain ⟨notZero, noZero⟩ := List.ne_and_not_mem_of_not_mem_cons noZero
    rw [partialFrameFrom, if_neg (Ne.symm notZero), ih noZero, List.append_assoc]
    rfl

/-- A sequence without a 0x00 is its own final run. -/
theorem partialFrame_of_zero_notMem {x : Bytes} (noZero : 0x00#8 ∉ x) : partialFrame x = x :=
  partialFrameFrom_of_zero_notMem noZero []

/-- The final run stands behind every 0x00. -/
theorem partialFrame_append_zero (x y : Bytes) : partialFrame (x ++ 0x00#8 :: y) = partialFrame y := by
  rw [partialFrame, partialFrameFrom_append]
  rfl

/-- Bytes without a 0x00 lengthen the final run where no 0x00 follows them. -/
theorem partialFrame_append {t y : Bytes} (noZero : 0x00#8 ∉ t) :
    partialFrame (t ++ y) = if 0x00#8 ∈ y then partialFrame y else t ++ y := by
  split_ifs with zero
  · obtain ⟨u, v, rfl, -⟩ := List.eq_append_cons_of_mem zero
    rw [← List.append_assoc, partialFrame_append_zero, partialFrame_append_zero]
  · exact partialFrame_of_zero_notMem (by simp [noZero, zero])

/-- The final run of `x` is not empty and its length is a multiple of 254: the encoder ends with a full group, behind
which the decoder accepts one empty group (41_frame_codec.md section 3). -/
def EndsInFullGroup (x : Bytes) : Prop := (partialFrame x).length ≠ 0 ∧ 254 ∣ (partialFrame x).length

theorem endsInFullGroup_append_zero (t y : Bytes) : EndsInFullGroup (t ++ 0x00#8 :: y) ↔ EndsInFullGroup y := by
  rw [EndsInFullGroup, partialFrame_append_zero, EndsInFullGroup]

theorem endsInFullGroup_of_full {t : Bytes} (noZero : 0x00#8 ∉ t) (whole : t.length = 254) : EndsInFullGroup t := by
  rw [EndsInFullGroup, partialFrame_of_zero_notMem noZero, whole]
  decide

theorem not_endsInFullGroup_of_short {t : Bytes} (noZero : 0x00#8 ∉ t) (short : t.length < 254) :
    ¬ EndsInFullGroup t := by
  rw [EndsInFullGroup, partialFrame_of_zero_notMem noZero]
  omega

theorem endsInFullGroup_full_append {t y : Bytes} (noZero : 0x00#8 ∉ t) (whole : t.length = 254) (more : y ≠ []) :
    EndsInFullGroup (t ++ y) ↔ EndsInFullGroup y := by
  have positive : 0 < y.length := List.length_pos_iff.mpr more
  rw [EndsInFullGroup, EndsInFullGroup, partialFrame_append noZero]
  split_ifs with zero
  · rfl
  · rw [partialFrame_of_zero_notMem zero, List.length_append, whole]
    omega

/-- An empty group behind a full one changes nothing. -/
theorem cobsDecodeRun_trailing_group {x : Bytes} (ends : EndsInFullGroup x) :
    cobsDecodeRun (cobsGroups x ++ [0x01#8]) = some x := by
  have behind (y : Bytes) : cobsGroups y ++ [0x01#8] ≠ [] := List.append_ne_nil_of_left_ne_nil (cobsGroups_ne_nil y) _
  induction x using group_induction with
  | last t noZero short => exact absurd ends (not_endsInFullGroup_of_short noZero short)
  | zero t y noZero short ih =>
    rw [endsInFullGroup_append_zero] at ends
    rw [cobsGroups_append_zero y noZero short, List.append_assoc,
      cobsDecodeRun_shortGroup_append short.le (behind y), ih ends, decodedGroup_of_short short]
    simp
  | full t y noZero whole ih =>
    by_cases more : y = []
    · rw [more, List.append_nil, cobsGroups_of_full noZero whole,
        cobsDecodeRun_shortGroup_append whole.le (List.cons_ne_nil _ _), decodedGroup_of_full whole]
      exact congrArg some (List.append_nil t)
    · rw [endsInFullGroup_full_append noZero whole more] at ends
      rw [cobsGroups_full_append noZero whole more, List.append_assoc,
        cobsDecodeRun_shortGroup_append whole.le (behind y), ih ends, decodedGroup_of_full whole]
      rfl

/-- A run that decodes begins with a group of at most 254 bytes. -/
theorem exists_shortGroup_of_cobsDecodeRun {f x : Bytes} (noZero : 0x00#8 ∉ f) (decoded : cobsDecodeRun f = some x) :
    ∃ t rest, t.length ≤ 254 ∧ f = shortGroup t ++ rest := by
  cases f with
  | nil => cases decoded
  | cons k rest =>
    have positive := toNat_pos_of_zero_notMem noZero
    have bound := k.isLt
    have inside : k.toNat - 1 ≤ rest.length := by
      rw [cobsDecodeRun_cons] at decoded
      split_ifs at decoded with past <;> omega
    have length : (rest.take (k.toNat - 1)).length = k.toNat - 1 := List.length_take_of_le inside
    refine ⟨rest.take (k.toNat - 1), rest.drop (k.toNat - 1), by omega, ?_⟩
    rw [shortGroup, length, Nat.sub_add_cancel positive, BitVec.ofNat_toNat, BitVec.setWidth_eq, List.cons_append,
      List.take_append_drop]

/-- A run that decodes to `x` is the encoder's, or the encoder's with an empty group behind a full one; by induction on
its groups. -/
theorem eq_cobsGroups_of_cobsDecodeRun {f x : Bytes} (noZero : 0x00#8 ∉ f) (decoded : cobsDecodeRun f = some x) :
    f = cobsGroups x ∨ f = cobsGroups x ++ [0x01#8] ∧ EndsInFullGroup x := by
  induction hn : f.length using Nat.strong_induction_on generalizing f x with
  | _ n ih =>
    obtain ⟨t, rest, fits, rfl⟩ := exists_shortGroup_of_cobsDecodeRun noZero decoded
    rw [List.mem_append, not_or] at noZero
    obtain ⟨noZeroGroup, noZeroRest⟩ := noZero
    have noZeroData : 0x00#8 ∉ t := List.not_mem_of_not_mem_cons noZeroGroup
    by_cases more : rest = []
    · rw [more, List.append_nil] at decoded ⊢
      rw [cobsDecodeRun_shortGroup fits] at decoded
      cases decoded
      obtain short | whole := fits.lt_or_eq
      · exact .inl (cobsGroups_last noZeroData short).symm
      · exact .inl (cobsGroups_of_full noZeroData whole).symm
    · rw [cobsDecodeRun_shortGroup_append fits more, Option.map_eq_some_iff] at decoded
      obtain ⟨y, decodedRest, rfl⟩ := decoded
      have behind := ih rest.length (by rw [← hn, List.length_append, shortGroup_length]; omega) noZeroRest decodedRest
        rfl
      obtain short | whole := fits.lt_or_eq
      · rw [decodedGroup_of_short short, List.append_assoc, List.singleton_append,
          cobsGroups_append_zero y noZeroData short, endsInFullGroup_append_zero]
        simpa using behind
      · rw [decodedGroup_of_full whole]
        by_cases moreData : y = []
        · have single : rest = [0x01#8] := by
            subst moreData
            obtain encoded | ⟨-, nonempty, -⟩ := behind
            · exact encoded
            · exact absurd rfl nonempty
          rw [moreData, List.append_nil, single, cobsGroups_of_full noZeroData whole]
          exact .inr ⟨rfl, endsInFullGroup_of_full noZeroData whole⟩
        · rw [cobsGroups_full_append noZeroData whole moreData, endsInFullGroup_full_append noZeroData whole moreData]
          simpa using behind

/-- Settles O18: a full group may be the last of its run or stand before an empty one, and the decoder leaves no other
choice. -/
theorem validRunIsEncodingUpToTrailingGroup : Obligations.ValidRunIsEncodingUpToTrailingGroup := by
  refine fun f x noZero => ⟨eq_cobsGroups_of_cobsDecodeRun noZero, ?_⟩
  rintro (rfl | ⟨rfl, ends⟩)
  · exact cobsDecodeRun_cobsGroups x
  · exact cobsDecodeRun_trailing_group ends

end Sys2Proof.Machine
end

section
/-! PROOFS. 30_encoding.md R111 to R123: the decoder and the encoder are inverse to each other. Each operand form is
inverted once, by the operands it accepts. -/

namespace Sys2Proof.Machine

open Sys2Proof

/-- An operation without operands is spelled by the empty operands alone (R118). -/
theorem decodeNone_eq_ok {i j : Instr} {x : Bytes} : decodeNone i x = .ok j ↔ i = j ∧ x = [] := by
  cases x with
  | nil => simp [decodeNone]
  | cons => simp [decodeNone]

/-- The operands of a data operation are `LEN16 DATA`, and `DATA` fits (R113). -/
theorem decodeData_eq_ok {mk : Bytes → Instr} {x : Bytes} {i : Instr} :
    decodeData mk x = .ok i ↔
      ∃ data, mk data = i ∧ dataFits data ∧ x = be16 (BitVec.ofNat 16 data.length) ++ data := by
  constructor
  · intro h
    match x with
    | [] | [_] => cases h
    | hi :: lo :: data =>
      rw [decodeData] at h
      split_ifs at h with length
      cases h
      have fits := (ofBe16 hi lo).isLt
      refine ⟨data, rfl, show data.length ≤ 65535 by omega, ?_⟩
      rw [length, BitVec.ofNat_toNat, BitVec.setWidth_eq, Laws.be16_ofBe16]
      rfl
  · rintro ⟨data, rfl, fits, rfl⟩
    have length : (BitVec.ofNat 16 data.length).toNat = data.length := Nat.mod_eq_of_lt (Nat.lt_succ_of_le fits)
    rw [be16, List.cons_append, List.singleton_append, decodeData, Laws.ofBe16_be16, if_pos length.symm]

/-- A word whose high bits are zero is its low bits, widened. -/
theorem setWidth_extractLsb'_of_high_zero {n m : Nat} {v : BitVec (n + m)} (high : v.extractLsb' n m = 0#m) :
    (v.extractLsb' 0 n).setWidth (n + m) = v := by
  have small : v.toNat < 2 ^ n := by
    have quotient : v.toNat / 2 ^ n < 2 ^ m := Nat.div_lt_of_lt_mul (Nat.pow_add 2 n m ▸ v.isLt)
    have := congrArg BitVec.toNat high
    rw [BitVec.extractLsb'_toNat, Nat.shiftRight_eq_div_pow, Nat.mod_eq_of_lt quotient, BitVec.toNat_zero] at this
    exact (Nat.div_eq_zero_iff_lt (Nat.two_pow_pos n)).mp this
  apply BitVec.eq_of_toNat_eq
  rw [BitVec.toNat_setWidth_of_le (Nat.le_add_right n m), BitVec.extractLsb'_toNat, Nat.shiftRight_zero,
    Nat.mod_eq_of_lt small]

/-- A field widened to a word has zero high bits. -/
theorem extractLsb'_high_setWidth {n m : Nat} (f : BitVec n) : (f.setWidth (n + m)).extractLsb' n m = 0#m := by
  apply BitVec.eq_of_toNat_eq
  rw [BitVec.extractLsb'_toNat, BitVec.toNat_setWidth_of_le (Nat.le_add_right n m), Nat.shiftRight_eq_div_pow,
    Nat.div_eq_of_lt f.isLt, Nat.zero_mod, BitVec.toNat_zero]

/-- A field widened to a word is its low bits. -/
theorem extractLsb'_low_setWidth {n m : Nat} (f : BitVec n) : (f.setWidth (n + m)).extractLsb' 0 n = f := by
  apply BitVec.eq_of_toNat_eq
  rw [BitVec.extractLsb'_toNat, BitVec.toNat_setWidth_of_le (Nat.le_add_right n m), Nat.shiftRight_zero,
    Nat.mod_eq_of_lt f.isLt]

/-- The operands of a message operation are `ID16 CMD8 LEN8 PAYLOAD` with zero reserved bits, and `PAYLOAD` fits
(R113, R123). -/
theorem decodeMessage_eq_ok {mk : MsgId → MsgCmd → Bytes → Instr} {x : Bytes} {i : Instr} :
    decodeMessage mk x = .ok i ↔
      ∃ id cmd p, mk id cmd p = i ∧ payloadFits p ∧
        x = be16 (id.setWidth 16) ++ [cmd.setWidth 8, BitVec.ofNat 8 p.length] ++ p := by
  constructor
  · intro h
    match x with
    | [] | [_] | [_, _] | [_, _, _] => cases h
    | i1 :: i2 :: cm :: len :: p =>
      rw [decodeMessage] at h
      split_ifs at h with wrong reserved
      cases h
      obtain ⟨idZero, cmdZero⟩ := not_or.mp reserved
      have length : p.length = len.toNat := not_not.mp wrong
      have fits := len.isLt
      refine ⟨_, _, p, rfl, show p.length ≤ 255 by omega, ?_⟩
      rw [setWidth_extractLsb'_of_high_zero (n := 11) (not_not.mp idZero),
        setWidth_extractLsb'_of_high_zero (n := 5) (not_not.mp cmdZero), Laws.be16_ofBe16, length,
        BitVec.ofNat_toNat, BitVec.setWidth_eq]
      rfl
  · rintro ⟨id, cmd, p, rfl, fits, rfl⟩
    have length : (BitVec.ofNat 8 p.length).toNat = p.length := Nat.mod_eq_of_lt (Nat.lt_succ_of_le fits)
    have idZero : (id.setWidth 16).extractLsb' 11 5 = 0#5 := extractLsb'_high_setWidth id
    have cmdZero : (cmd.setWidth 8).extractLsb' 5 3 = 0#3 := extractLsb'_high_setWidth cmd
    have idLow : (id.setWidth 16).extractLsb' 0 11 = id := extractLsb'_low_setWidth (m := 5) id
    have cmdLow : (cmd.setWidth 8).extractLsb' 0 5 = cmd := extractLsb'_low_setWidth (m := 3) cmd
    simp only [be16, List.cons_append, List.nil_append, decodeMessage, Laws.ofBe16_be16, length, idZero, cmdZero, idLow,
      cmdLow, ne_eq, not_true_eq_false, or_self, if_false]

/-- The operand of READ_STATUS is one byte that names a defined register (R117, R123). -/
theorem decodeRegister_eq_ok {x : Bytes} {i : Instr} :
    decodeRegister x = .ok i ↔ ∃ reg, .readStatus reg = i ∧ registerDefined reg ∧ x = [reg] := by
  constructor
  · intro h
    match x with
    | [] | _ :: _ :: _ => cases h
    | [reg] =>
      rw [decodeRegister] at h
      split_ifs at h with defined
      cases h
      exact ⟨reg, rfl, defined, rfl⟩
  · rintro ⟨reg, rfl, defined, rfl⟩
    exact if_pos defined

/-- The encoder's transaction of a command that a transaction can spell decodes to it. -/
theorem decode_encode {i : Instr} (wf : i.wellFormed = true) : decode (encode i) = .ok i := by
  have data {mk : Bytes → Instr} {d : Bytes} (fits : dataFits d) :
      decodeData mk (be16 (BitVec.ofNat 16 d.length) ++ d) = .ok (mk d) :=
    decodeData_eq_ok.mpr ⟨d, rfl, fits, rfl⟩
  have message {mk : MsgId → MsgCmd → Bytes → Instr} {id : MsgId} {cmd : MsgCmd} {p : Bytes} (fits : payloadFits p) :
      decodeMessage mk (be16 (id.setWidth 16) ++ [cmd.setWidth 8, BitVec.ofNat 8 p.length] ++ p) = .ok (mk id cmd p) :=
    decodeMessage_eq_ok.mpr ⟨id, cmd, p, rfl, fits, rfl⟩
  cases i with
  | reset | takeFrame => rfl
  | checksum | verify | cobsEncode | cobsDecode | unpack | append => exact data (of_decide_eq_true wf)
  | pack | write => exact message (of_decide_eq_true wf)
  | readStatus reg => exact decodeRegister_eq_ok.mpr ⟨reg, rfl, of_decide_eq_true wf, rfl⟩

/-- A transaction that decodes is the encoder's, of a command that a transaction can spell. -/
theorem encode_of_decode {bytes : Bytes} {i : Instr} (h : decode bytes = .ok i) :
    i.wellFormed = true ∧ encode i = bytes := by
  cases bytes with
  | nil => cases h
  | cons c x =>
    obtain defined | reserved := Nat.lt_or_ge c.toNat 0x0B
    · have command : c = BitVec.ofNat 8 c.toNat := by simp
      generalize c.toNat = n at command defined
      subst command
      match n, defined, h with
      | 0, _, h | 8, _, h =>
        obtain ⟨rfl, rfl⟩ := decodeNone_eq_ok.mp h
        exact ⟨rfl, rfl⟩
      | 1, _, h | 2, _, h | 3, _, h | 4, _, h | 6, _, h | 7, _, h =>
        obtain ⟨data, rfl, fits, rfl⟩ := decodeData_eq_ok.mp h
        exact ⟨decide_eq_true fits, rfl⟩
      | 5, _, h | 9, _, h =>
        obtain ⟨id, cmd, p, rfl, fits, rfl⟩ := decodeMessage_eq_ok.mp h
        exact ⟨decide_eq_true fits, rfl⟩
      | 10, _, h =>
        obtain ⟨reg, rfl, defined, rfl⟩ := decodeRegister_eq_ok.mp h
        exact ⟨decide_eq_true defined, rfl⟩
    · cases (decode_of_reserved_command reserved x).symm.trans h

/-- Settles O38: each operand form accepts what the encoder writes. -/
theorem decodeOfEncode : Obligations.DecodeOfEncode :=
  fun _ => decode_encode

/-- Settles O39: each operand form accepts nothing else. -/
theorem encodeOfDecode : Obligations.EncodeOfDecode :=
  fun _ _ => encode_of_decode

/-- Settles O40: the words are closed, and the decoder evaluates to the operation of each. -/
theorem specWordsDecode : Obligations.SpecWordsDecode :=
  ⟨rfl, rfl, rfl, rfl, rfl, rfl, rfl, rfl, rfl, rfl, rfl⟩

end Sys2Proof.Machine
end

section
/-! PROOFS. 40_checksum.md: the fold as a sum of bytes without carry, and the errors it detects. -/

namespace Sys2Proof.Machine

open Sys2Proof

theorem checksum_append (s t : Bytes) : checksum (s ++ t) = checksum s ^^^ checksum t := by
  rw [checksum, List.foldl_append, foldl_xor]
  rfl

theorem checksum_cons (b : Byte) (s : Bytes) : checksum (b :: s) = b ^^^ checksum s := by
  rw [checksum, List.foldl_cons, foldl_xor, BitVec.zero_xor]

theorem checksum_singleton (b : Byte) : checksum [b] = b := BitVec.zero_xor

/-- The order of the bytes does not matter, because that of two neighbours does not. -/
theorem checksum_perm {s t : Bytes} (perm : s.Perm t) : checksum s = checksum t := by
  induction perm with
  | nil => rfl
  | cons b _ ih => rw [checksum_cons, checksum_cons, ih]
  | swap b c s => simp only [checksum_cons, ← BitVec.xor_assoc, BitVec.xor_comm b c]
  | trans _ _ ih₁ ih₂ => exact ih₁.trans ih₂

/-- Settles O8: the fold of a concatenation gives the other two laws their steps. -/
theorem checksumAlgebraicLaws : Obligations.ChecksumAlgebraicLaws := by
  refine ⟨checksum_append, fun _ _ => checksum_perm, fun s => ?_⟩
  rw [checksum_append, checksum_singleton, BitVec.xor_self]

/-- A change of one byte is the same change of the fold. -/
theorem checksum_set_xor {s : Bytes} {i : Nat} {b : Byte} (found : s[i]? = some b) (change : Byte) :
    checksum (s.set i (b ^^^ change)) = checksum s ^^^ change := by
  induction s generalizing i with
  | nil => cases found
  | cons c s ih =>
    cases i with
    | zero =>
      cases found
      simp only [List.set_cons_zero, checksum_cons, BitVec.xor_assoc, BitVec.xor_comm change]
    | succ i =>
      simp only [List.set_cons_succ, checksum_cons, ih found, BitVec.xor_assoc]

/-- The mask of a bit position in a byte is not zero. -/
theorem one_shiftLeft_ne_zero {j : Nat} (inside : j < 8) : (1#8 <<< j) ≠ 0#8 := by
  interval_cases j <;> decide

/-- Changing the bits of a mask that is not zero changes the value. -/
theorem xor_ne_self {a m : Byte} (change : m ≠ 0#8) : a ^^^ m ≠ a :=
  fun same => change ((BitVec.xor_right_inj a).mp (same.trans BitVec.xor_zero.symm))

/-- Settles O9: one flip changes the fold by its mask, and two of one mask cancel. -/
theorem checksumSeesSingleBitFlip : Obligations.ChecksumSeesSingleBitFlip := by
  refine ⟨fun s i j b found inside => ?_, fun s i i' j b b' other found found' => ?_⟩
  · rw [checksum_set_xor found]
    exact ⟨rfl, xor_ne_self (one_shiftLeft_ne_zero inside)⟩
  · have still : (s.set i (b ^^^ (1#8 <<< j)))[i']? = some b' := by rwa [List.getElem?_set_ne other]
    rw [checksum_set_xor still, checksum_set_xor found, BitVec.xor_assoc, BitVec.xor_self, BitVec.xor_zero]

/-- A sequence verifies exactly when it folds to zero (40_checksum.md section 2). -/
theorem verify_iff {s : Bytes} (nonempty : s ≠ []) : verify s = true ↔ checksum s = 0x00#8 := by
  obtain ⟨init, trailer, rfl⟩ := (List.eq_nil_or_concat' s).resolve_left nonempty
  rw [verify_concat, decide_eq_true_eq, checksum_append, checksum_singleton, BitVec.xor_eq_zero_iff]

/-- A sequence that verifies does not after one bit is flipped, the trailer's included. -/
theorem verify_flip {s : Bytes} {i j : Nat} {b : Byte} (verifies : verify s = true) (found : s[i]? = some b)
    (inside : j < 8) : verify (s.set i (b ^^^ (1#8 <<< j))) = false := by
  have nonempty : s ≠ [] := by
    rintro rfl
    cases found
  have still : s.set i (b ^^^ (1#8 <<< j)) ≠ [] := by rwa [Ne, List.set_eq_nil_iff]
  rw [Bool.eq_false_iff, Ne, verify_iff still, checksum_set_xor found, (verify_iff nonempty).mp verifies,
    BitVec.zero_xor]
  exact one_shiftLeft_ne_zero inside

/-- Settles O10: the fold of all bytes is that of the body combined with the trailer. -/
theorem verifyIffFoldIsZero : Obligations.VerifyIffFoldIsZero :=
  ⟨fun _ => verify_iff, fun _ _ _ _ => verify_flip⟩

end Sys2Proof.Machine
end

section
/-! PROOFS. 42_message_layout.md sections 1 and 2, 00_scope.md section 3: packing and unpacking, and the length of a
wire frame. -/

namespace Sys2Proof.Machine

open Sys2Proof

/-- The second header byte (30_encoding.md R101). -/
def headerByte1 (id : MsgId) (cmd : MsgCmd) : Byte := ((id.extractLsb' 0 3).setWidth 8 <<< 5) ||| cmd.setWidth 8

/-- A packed message is its header bytes, its payload and the fold of all of them (30_encoding.md R102). -/
theorem pack_eq (id : MsgId) (cmd : MsgCmd) (p : Bytes) :
    pack id cmd p = id.extractLsb' 3 8 :: headerByte1 id cmd :: BitVec.ofNat 8 p.length ::
      (p ++ [checksum (id.extractLsb' 3 8 :: headerByte1 id cmd :: BitVec.ofNat 8 p.length :: p)]) := rfl

/-- The identifier is read back from the header. -/
theorem headerId_header (id : MsgId) (cmd : MsgCmd) : headerId (id.extractLsb' 3 8) (headerByte1 id cmd) = id := by
  have := cmd.isLt
  apply BitVec.eq_of_toNat_eq
  rw [headerId_toNat, headerByte0_toNat, headerByte1, headerByte1_toNat]
  omega

/-- The low five bits of the second header byte are the command. -/
theorem headerByte1_and_toNat (id : MsgId) (cmd : MsgCmd) : (headerByte1 id cmd &&& 0x1F#8).toNat = cmd.toNat := by
  have := cmd.isLt
  have mask (n : Nat) : n &&& 31 = n % 32 := Nat.and_two_pow_sub_one_eq_mod n 5
  rw [BitVec.toNat_and, headerByte1, headerByte1_toNat, show (0x1F#8).toNat = 31 from rfl, mask]
  omega

/-- The command is read back from the header. -/
theorem headerCmd_header (id : MsgId) (cmd : MsgCmd) : headerCmd (headerByte1 id cmd) = cmd := by
  apply BitVec.eq_of_toNat_eq
  rw [headerCmd, BitVec.toNat_setWidth, headerByte1_and_toNat, Nat.mod_eq_of_lt cmd.isLt]

/-- A packed message ends in the fold of what stands before it. -/
theorem verify_pack (id : MsgId) (cmd : MsgCmd) (p : Bytes) : verify (pack id cmd p) = true :=
  (verify_concat (header id cmd p ++ p) _).trans (decide_eq_true rfl)

/-- Unpacking gives back what was packed (42_message_layout.md section 1). -/
theorem unpack_pack (id : MsgId) (cmd : MsgCmd) {p : Bytes} (fits : p.length ≤ 255) :
    unpack (pack id cmd p) = .ok ⟨id, cmd, BitVec.ofNat 8 p.length, p⟩ := by
  have length : (BitVec.ofNat 8 p.length).toNat = p.length := Nat.mod_eq_of_lt (Nat.lt_succ_of_le fits)
  rw [pack_eq, unpack_header, length, if_neg (Nat.lt_irrefl _), if_pos rfl, headerId_header, headerCmd_header,
    List.take_length]

/-- Settles O21: each field is read back from the bytes that hold it. -/
theorem unpackOfPackIsMessage : Obligations.UnpackOfPackIsMessage :=
  fun id cmd p fits => ⟨pack_length id cmd p, verify_pack id cmd p, unpack_pack id cmd fits,
    congrArg some (headerByte1_and_toNat id cmd)⟩

/-- A run that does not verify does not unpack, and is truncated only by its length byte (42_message_layout.md R196). -/
theorem unpack_of_not_verify {d : Bytes} {len : Byte} (length : 4 ≤ d.length) (third : d[2]? = some len)
    (fails : verify d = false) :
    unpack d = .error (if d.length - 4 < len.toNat then .truncatedMessage else .checksumMismatch) := by
  obtain ⟨b0, b1, _, body, trailer, rfl⟩ := exists_header_of_length length
  cases third
  have fold : checksum (b0 :: b1 :: len :: body) ≠ trailer := by
    have := (verify_concat (b0 :: b1 :: len :: body) trailer).symm.trans fails
    exact of_decide_eq_false this
  have bytes : (b0 :: b1 :: len :: (body ++ [trailer])).length - 4 = body.length := by simp
  rw [unpack_header, if_neg fold, bytes]
  split_ifs <;> rfl

/-- Settles O24: the flipped message does not verify, and only a flip of its third byte changes the length it
declares. -/
theorem flippedMessageNeverUnpacks : Obligations.FlippedMessageNeverUnpacks := by
  intro id cmd p i j b fits found inside
  have fails := verify_flip (verify_pack id cmd p) found inside
  have length : ((pack id cmd p).set i (b ^^^ (1#8 <<< j))).length = p.length + 4 := by
    rw [List.length_set, pack_length]
  refine ⟨fails, ?_⟩
  by_cases third : i = 2
  · subst third
    have declared : ((pack id cmd p).set 2 (b ^^^ (1#8 <<< j)))[2]? = some (b ^^^ (1#8 <<< j)) := rfl
    rw [unpack_of_not_verify (by omega) declared fails, length, Nat.add_sub_cancel]
    simp only [true_and]
  · have declared : ((pack id cmd p).set i (b ^^^ (1#8 <<< j)))[2]? = some (BitVec.ofNat 8 p.length) := by
      rw [List.getElem?_set_ne third]
      rfl
    have whole : (BitVec.ofNat 8 p.length).toNat = p.length := Nat.mod_eq_of_lt (Nat.lt_succ_of_le fits)
    rw [unpack_of_not_verify (by omega) declared fails, length, Nat.add_sub_cancel, whole, if_neg (Nat.lt_irrefl _),
      if_neg fun flipped => third flipped.1]

/-- A wire frame is the groups of a packed message and its terminator. -/
theorem wireFrame_length (id : MsgId) (cmd : MsgCmd) (p : Bytes) :
    (wireFrame id cmd p).length = (cobsGroups (pack id cmd p)).length + 1 := by
  rw [wireFrame, cobsFrame, List.length_append, List.length_singleton]

/-- Settles O35: the bounds of the encoder's output, for a packed message of `L + 4` bytes. -/
theorem wireFrameLength : Obligations.WireFrameLength := by
  intro id cmd p fits
  obtain ⟨lower, upper, -⟩ := cobsGroups_length_bounds (pack id cmd p)
  rw [pack_length] at lower upper
  rw [wireFrame_length]
  omega

end Sys2Proof.Machine
end

section
/-! PROOFS. 00_scope.md R8, 20_memory.md R84: the steps of an instance and of its schedule. -/

namespace Sys2Proof.Machine

open Sys2Proof

/-- Only an instance has a next state (00_scope.md R8). -/
theorem legal_of_step {s t : State} (h : step s = .next t) : s.cfg.Legal := by
  obtain ⟨-, stop⟩ | ⟨legal, -⟩ | ⟨legal, -⟩ := step_cases s
  · cases stop.symm.trans h
  · exact legal
  · exact legal

/-- Settles O3: on such a configuration every operation asks `onInstance` in vain, and so does every step. -/
theorem illegalConfigurationRefused : Obligations.IllegalConfigurationRefused := by
  intro s illegal
  rw [← legal_iff_lt_two_pow] at illegal
  refine ⟨fun i => ?_, ?_⟩
  · rw [exec_eq, onInstance_of_not_legal _ illegal]
  · obtain ⟨-, stop⟩ | ⟨legal, -⟩ | ⟨legal, -⟩ := step_cases s
    · exact stop
    · exact absurd legal illegal
    · exact absurd legal illegal

/-- Whether an operation is enabled does not depend on what is still to come. -/
theorem enabled_schedule (a : Agent) (i : Instr) (s : State) (rest : List Issue) :
    enabled a i { s with schedule := rest } = enabled a i s := by
  cases a <;> cases i <;> rfl

/-- A step of the schedule runs the operation its transaction spells, or passes it over. -/
theorem step_of_decode {s : State} {u : Issue} {rest : List Issue} {i : Instr} (due : s.schedule = u :: rest)
    (spells : decode u.bytes = .ok i) :
    step s = if enabled u.agent i s then exec i { s with schedule := rest, issuer := u.agent }
      else onInstance s { s with schedule := rest } := by
  simp only [step, runNext, due, runTransaction, spells, enabled_schedule]
  rfl

/-- Settles O44: a step takes the next entry of the schedule, if there is one, and decodes it. -/
theorem stepRunsDecodedOperation : Obligations.StepRunsDecodedOperation := by
  refine ⟨fun s u rest i due spells able => ?_, fun s legal empty => ?_, fun s u rest i legal due spells unable => ?_⟩
  · rw [step_of_decode due spells, if_pos able]
  · simp only [step, runNext, empty]
    exact onInstance_of_legal s legal
  · rw [step_of_decode due spells, unable, if_neg Bool.false_ne_true, onInstance_of_legal _ legal]

end Sys2Proof.Machine
end

section
/-! PROOFS. 43_intake_flow.md sections 1 and 2: how an operation moves the flow, and the hysteresis of the
watermarks. -/

namespace Sys2Proof.Machine

open Sys2Proof

/-- What an operation that adds the levels `levels` to the line does to the flow: it keeps it, and with it the band; it
pauses at the high watermark; or it resumes at the low one (43_intake_flow.md section 1). -/
def FlowMoves (s t : State) (levels : List Bool) : Prop :=
  (levels = [] ∧ t.flow = s.flow ∧ t.fcLine = s.fcLine ∧ (s.FlowWithinBand → t.FlowWithinBand)) ∨
  (levels = [false] ∧ s.flow = .flowing ∧ t.flow = .paused ∧ t.fcLine = false ∧ s.cfg.highWatermark ≤ occ t) ∨
  (levels = [true] ∧ t.flow = .flowing ∧ t.fcLine = true ∧ occ t ≤ s.cfg.lowWatermark)

/-- The flow evaluation moves the flow, and emits what it moves it by, from a state `u` that an operation has reached
from `s` with the flow and the line still those of `s`. -/
theorem flowEval_moves {s u : State} (cfg : u.cfg = s.cfg) (flow : u.flow = s.flow) (line : u.fcLine = s.fcLine) :
    ∃ ev, (flowEval u).hist = u.hist ++ ev ∧ FlowMoves s (flowEval u) (flowLevels ev) := by
  obtain ⟨was, high, e⟩ | ⟨-, low, e⟩ | ⟨below, above, e⟩ := flowEval_cases u <;> rw [e]
  · exact ⟨[.flowSet false], rfl, .inr (.inl ⟨rfl, flow.symm.trans was, rfl, rfl, cfg ▸ high⟩)⟩
  · exact ⟨[.flowSet true], rfl, .inr (.inr ⟨rfl, rfl, rfl, cfg ▸ low⟩)⟩
  · exact ⟨[], (List.append_nil _).symm, .inl ⟨rfl, flow, line, fun _ => ⟨below, above⟩⟩⟩

/-- Every operation moves the flow and emits what it moves it by: RESET resumes, APPEND and TAKE_FRAME evaluate it, and
the others do not touch it. -/
theorem Acts.flowMoves {s t : State} {i : Instr} (h : Acts s i t) :
    ∃ ev, t.hist = s.hist ++ ev ∧ FlowMoves s t (flowLevels ev) := by
  have still {ev : List Event} (quiet : flowLevels ev = []) (hist : t.hist = s.hist ++ ev) (cfg : t.cfg = s.cfg)
      (fifo : t.fifo = s.fifo) (flow : t.flow = s.flow) (line : t.fcLine = s.fcLine) :
      ∃ ev, t.hist = s.hist ++ ev ∧ FlowMoves s t (flowLevels ev) :=
    ⟨ev, hist, .inl ⟨quiet, flow, line, by simp only [State.FlowWithinBand, occ, cfg, fifo, flow, imp_self]⟩⟩
  cases h with
  | reset => exact ⟨[.flowSet true], rfl, .inr (.inr ⟨rfl, rfl, rfl, Nat.zero_le _⟩)⟩
  | overflow =>
    obtain ⟨ev, hist, moves⟩ := flowEval_moves (s := s) (u := count .bufferOverflow (setFifo [] s)) rfl rfl rfl
    exact ⟨.error .bufferOverflow :: ev, by simp [hist], moves⟩
  | enqueue chunk =>
    obtain ⟨ev, hist, moves⟩ := flowEval_moves (s := s) (u := setFifo (s.fifo ++ chunk) s) rfl rfl rfl
    exact ⟨ev, hist, moves⟩
  | drop _ rest k =>
    obtain ⟨ev, hist, moves⟩ := flowEval_moves (s := s) (u := setFifo rest s) rfl rfl rfl
    have quiet : flowLevels (ev ++ [.error k]) = flowLevels ev := (flowLevels_append ev _).trans (List.append_nil _)
    exact ⟨ev ++ [.error k], by simp [hist], by rw [quiet]; exact moves⟩
  | dispatch _ rest m =>
    obtain ⟨ev, hist, moves⟩ := flowEval_moves (s := s) (u := setFifo rest s) rfl rfl rfl
    have quiet : flowLevels (ev ++ [.dispatch m]) = flowLevels ev := (flowLevels_append ev _).trans (List.append_nil _)
    exact ⟨ev ++ [.dispatch m], by simp [hist], by rw [quiet]; exact moves⟩
  | transmit id cmd p => exact still (ev := [.txFrame (wireFrame id cmd p)]) rfl rfl rfl rfl rfl rfl
  | answer => exact still (ev := []) rfl (List.append_nil _).symm rfl rfl rfl rfl

/-- Every step moves the flow as an operation does, since a step without one changes neither flow nor FIFO. -/
theorem step_flowMoves {s t : State} (h : step s = .next t) :
    ∃ ev, t.hist = s.hist ++ ev ∧ FlowMoves s t (flowLevels ev) := by
  obtain ⟨_, _, _, rfl⟩ | ⟨u, rest, i, -, -, -, ran⟩ := acts_of_step h
  · exact ⟨[], (List.append_nil _).symm, .inl ⟨rfl, rfl, rfl, id⟩⟩
  · exact ran.flowMoves

/-- Where the watermarks are in order, a move of the flow keeps the band: a state that pauses is at the high watermark
and so above the low one, and the other way round. -/
theorem FlowMoves.flowWithinBand {s t : State} {levels : List Bool} (h : FlowMoves s t levels) (legal : s.cfg.Legal)
    (cfg : t.cfg = s.cfg) (band : s.FlowWithinBand) : t.FlowWithinBand := by
  obtain ⟨-, -, order, -⟩ := legal
  obtain ⟨-, -, -, keeps⟩ | ⟨-, -, flow, -, high⟩ | ⟨-, flow, -, low⟩ := h
  · exact keeps band
  · rw [State.FlowWithinBand, flow, cfg]
    exact ⟨nofun, fun _ => order.trans_le high⟩
  · rw [State.FlowWithinBand, flow, cfg]
    exact ⟨fun _ => low.trans_lt order, nofun⟩

/-- Settles O54: every step moves the flow so that the band is kept. -/
theorem stepKeepsFlowWithinBand : Obligations.StepKeepsFlowWithinBand := by
  intro s t band h
  obtain ⟨ev, -, moves⟩ := step_flowMoves h
  exact moves.flowWithinBand (legal_of_step h) (step_cfg h) band

/-- Settles O32: of the three moves of the flow, the occupancy after the step leaves one. -/
theorem watermarkHysteresis : Obligations.WatermarkHysteresis := by
  intro s t band h
  obtain ⟨-, -, order, -⟩ := legal_of_step h
  obtain ⟨below, above⟩ := stepKeepsFlowWithinBand s t band h
  rw [step_cfg h] at below above
  obtain ⟨ev, hist, moves⟩ := step_flowMoves h
  refine ⟨ev, hist, ?_⟩
  obtain ⟨levels, flow, -, -⟩ | ⟨levels, was, flow, -, high⟩ | ⟨levels, flow, -, low⟩ := moves
  · exact ⟨fun flowing reached => absurd (below (flow.trans flowing)) reached.not_gt,
      fun paused reached => absurd (above (flow.trans paused)) reached.not_gt, fun _ _ => ⟨levels, flow⟩⟩
  · exact ⟨fun _ _ => ⟨levels, flow⟩, fun _ reached => absurd (high.trans reached) order.not_ge,
      fun _ inside => absurd high inside.not_ge⟩
  · exact ⟨fun _ reached => absurd (reached.trans low) order.not_ge, fun _ _ => ⟨levels, flow⟩,
      fun inside _ => absurd low inside.not_ge⟩

/-- Settles O27: the flow evaluation after an overflow finds an empty FIFO, which is below the high watermark and not
above the low one. -/
theorem overflowResumesFlow : Obligations.OverflowResumesFlow := by
  intro chunk s t nonempty full h
  obtain ⟨⟨-, -, order, -⟩, rfl⟩ := exec_eq_next.mp h
  have full : s.cfg.capacity < occ s + chunk.length := full
  simp only [effect, appendChunk, if_neg nonempty, if_pos full]
  obtain ⟨-, high, -⟩ | ⟨paused, -, e⟩ | ⟨-, above, e⟩ :=
    flowEval_cases (count .bufferOverflow (setFifo [] s))
  · have high : s.cfg.highWatermark ≤ 0 := high
    omega
  · have paused : s.flow = .paused := paused
    simp [e, paused]
  · have flowing : s.flow = .flowing := by
      cases flow : s.flow with
      | flowing => rfl
      | paused => exact absurd (above flow) (Nat.not_lt_zero _)
    simp [e, flowing]

end Sys2Proof.Machine
end

section
/-! PROOFS. 10_state.md sections 1 and 2: what `hist` and `tx` record, and the invariants of a run. -/

namespace Sys2Proof.Machine

open Sys2Proof

/-- What an operation puts on `tx` is what its events say (10_state.md R38), and only TAKE_FRAME's give a frame a fate
(60_exceptions.md R293). -/
theorem Acts.sent_and_fates {s t : State} {i : Instr} (h : Acts s i t) :
    ∃ ev, t.hist = s.hist ++ ev ∧ t.tx = s.tx ++ sentBytes ev ∧ (i ≠ .takeFrame → frameFates ev = []) := by
  cases h with
  | reset => exact ⟨[.flowSet true], rfl, (List.append_nil _).symm, fun _ => rfl⟩
  | overflow =>
    obtain ⟨ev, hist, fateless, silent, -⟩ := flowEval_hist (count .bufferOverflow (setFifo [] s))
    exact ⟨.error .bufferOverflow :: ev, by simp [hist], by simp [sentBytes, silent], fun _ => fateless⟩
  | enqueue chunk =>
    obtain ⟨ev, hist, fateless, silent, -⟩ := flowEval_hist (setFifo (s.fifo ++ chunk) s)
    exact ⟨ev, hist, by simp [silent], fun _ => fateless⟩
  | drop _ rest k =>
    obtain ⟨ev, hist, -, silent, -⟩ := flowEval_hist (setFifo rest s)
    exact ⟨ev ++ [.error k], by simp [hist], by simp [sentBytes, silent], (absurd rfl ·)⟩
  | dispatch _ rest m =>
    obtain ⟨ev, hist, -, silent, -⟩ := flowEval_hist (setFifo rest s)
    exact ⟨ev ++ [.dispatch m], by simp [hist], by simp [sentBytes, silent], (absurd rfl ·)⟩
  | transmit id cmd p => exact ⟨[.txFrame (wireFrame id cmd p)], rfl, by simp [sentBytes], fun _ => rfl⟩
  | answer => exact ⟨[], (List.append_nil _).symm, (List.append_nil _).symm, fun _ => rfl⟩

/-- Settles O51: only WRITE reaches `tx`, with the event of its frame. -/
theorem historyAndTransmitOnlyGrow : Obligations.HistoryAndTransmitOnlyGrow := by
  intro s t h
  obtain ⟨_, _, _, rfl⟩ | ⟨u, rest, i, -, -, -, ran⟩ := acts_of_step h
  · exact ⟨[], (List.append_nil _).symm, (List.append_nil _).symm⟩
  · obtain ⟨ev, hist, sent, -⟩ := ran.sent_and_fates
    exact ⟨ev, hist, sent⟩

/-- The line after some events is at the last level they set, or where it was. -/
theorem lineAfter_eq_getLastD (l : Bool) (ev : List Event) : lineAfter l ev = (flowLevels ev).getLastD l := by
  induction ev generalizing l with
  | nil => rfl
  | cons e ev ih => cases e <;> simp only [lineAfter, flowLevels, List.getLastD_cons, ih]

/-- A move of the flow leaves the line where its levels say. -/
theorem FlowMoves.line {s t : State} {levels : List Bool} (h : FlowMoves s t levels) :
    t.fcLine = levels.getLastD s.fcLine ∧ (s.LineMirrorsFlow → t.LineMirrorsFlow) := by
  obtain ⟨rfl, flow, line, -⟩ | ⟨rfl, -, flow, line, -⟩ | ⟨rfl, flow, line, -⟩ := h
  · exact ⟨line, fun mirror => by rw [State.LineMirrorsFlow, line, flow, mirror]⟩
  · exact ⟨line, fun _ => by rw [State.LineMirrorsFlow, line, flow, level_paused]⟩
  · exact ⟨line, fun _ => by rw [State.LineMirrorsFlow, line, flow, level_flowing]⟩

/-! ### The invariants -/

/-- Settles O55: the FIFO is empty, the block Flowing, and there are no events. -/
theorem powerOnMeetsInvariant : Obligations.PowerOnMeetsInvariant := by
  intro c legal
  have ⟨_, _, order, _, _⟩ := legal
  exact ⟨legal, Nat.zero_le _, rfl, ⟨fun _ => Nat.zero_lt_of_lt order, nofun⟩, rfl, rfl⟩

/-- Settles O56: each invariant is kept by what a step does to the fields it speaks of. -/
theorem stepKeepsInvariant : Obligations.StepKeepsInvariant := by
  rintro s t ⟨legal, bound, mirror, band, tx, line⟩ h
  obtain ⟨ev, hist, moves⟩ := step_flowMoves h
  obtain ⟨ev', hist', sent⟩ := historyAndTransmitOnlyGrow s t h
  obtain ⟨lineMoved, mirrors⟩ := moves.line
  refine ⟨(step_cfg h).symm ▸ legal, stepKeepsOccupancyBound.2 s t bound h, mirrors mirror,
    stepKeepsFlowWithinBand s t band h, ?_, ?_⟩
  · rw [State.TxRecorded, hist', sentBytes_append, sent, tx]
  · rw [State.LineRecorded, hist, lineAfter_append, ← line, lineMoved, lineAfter_eq_getLastD]

theorem runSteps_of_step {s u : State} (first : step s = .next u) (n : Nat) : runSteps (n + 1) s = runSteps n u := by
  rw [runSteps, first]

/-- What every step of an instance leads to again, every run leads to. -/
theorem runSteps_induction {P : State → Prop} (keeps : ∀ s, P s → ∃ t, step s = .next t ∧ P t) (n : Nat) {s : State}
    (start : P s) : ∃ t, runSteps n s = .next t ∧ P t := by
  induction n generalizing s with
  | zero => exact ⟨s, rfl, start⟩
  | succ n ih =>
    obtain ⟨u, first, holds⟩ := keeps s start
    obtain ⟨t, others, holds⟩ := ih holds
    exact ⟨t, (runSteps_of_step first n).trans others, holds⟩

/-- Settles O57: the invariants hold at power-on whatever is scheduled, and where they hold a step reaches a state where
they hold. -/
theorem everyRunMeetsInvariant : Obligations.EveryRunMeetsInvariant := by
  intro c schedule n legal
  refine runSteps_induction (P := State.Inv) (fun s inv => ?_) n (powerOnMeetsInvariant c legal)
  have ⟨legal, _⟩ := inv
  obtain ⟨t, next⟩ := exists_step_eq_next legal
  exact ⟨t, next, stepKeepsInvariant s t inv next⟩

end Sys2Proof.Machine
end

section
/-! PROOFS. 30_encoding.md R119, R121: the result of an operation, and the operations that do nothing but return one. -/

namespace Sys2Proof.Machine

open Sys2Proof

/-- The one result of an operation that its row of 30_encoding.md R119 allows: a code of the row, with data of the row's
length where the code is not OK. -/
def AnswersByRow (i : Instr) (s t : State) : Prop :=
  ∃ code data, t.replies = s.replies ++ [⟨s.issuer, code, data⟩] ∧ code ∈ resultCodes i ∧
    (code ≠ .ok → data.length = errorDataLength i)

/-- OK is a code of every row, and any data may come with it. -/
theorem answersByRow_ok {i : Instr} {s t : State} (data : Bytes)
    (h : t.replies = s.replies ++ [⟨s.issuer, .ok, data⟩]) : AnswersByRow i s t :=
  ⟨.ok, data, h, by cases i <;> simp [resultCodes], (absurd rfl ·)⟩

theorem answersByRow_code {i : Instr} {s t : State} {code : ResultCode} {data : Bytes}
    (h : t.replies = s.replies ++ [⟨s.issuer, code, data⟩]) (row : code ∈ resultCodes i)
    (length : data.length = errorDataLength i) : AnswersByRow i s t :=
  ⟨code, data, h, row, fun _ => length⟩

theorem effect_answersByRow (i : Instr) (s : State) : AnswersByRow i s (effect i s) := by
  cases i with
  | reset => exact answersByRow_ok [] (by simp [effect])
  | checksum data => exact answersByRow_ok _ rfl
  | verify data => exact answersByRow_ok _ rfl
  | cobsEncode data => exact answersByRow_ok _ rfl
  | cobsDecode data =>
    simp only [effect]
    split
    · exact answersByRow_code rfl (by simp [resultCodes]) rfl
    · split
      · exact answersByRow_code rfl (by simp [resultCodes]) rfl
      · exact answersByRow_ok _ rfl
  | pack id cmd p =>
    simp only [effect]
    split_ifs
    · exact answersByRow_code rfl (by simp [resultCodes]) rfl
    · exact answersByRow_ok _ rfl
  | unpack data =>
    cases fate : unpack data with
    | ok m => exact answersByRow_ok (messageData m) (by simp [effect, fate])
    | error k =>
      refine answersByRow_code (code := k.code) (data := []) (by simp [effect, fate]) ?_ rfl
      obtain rfl | rfl := unpack_error fate <;> simp [resultCodes, ErrorKind.code]
  | append chunk =>
    simp only [effect, appendChunk]
    split_ifs
    · exact answersByRow_ok [] rfl
    · exact answersByRow_code (code := .bufferOverflow) (data := []) (by simp) (by simp [resultCodes]) rfl
    · exact answersByRow_ok [] (by simp)
  | takeFrame =>
    obtain ⟨-, e⟩ | ⟨run, rest, -, -, ⟨k, fate, e⟩ | ⟨m, -, e⟩⟩ := takeFrame_cases s <;> rw [effect, e]
    · exact answersByRow_code rfl (by simp [resultCodes]) rfl
    · refine answersByRow_code (code := k.code) (data := []) (by simp) ?_ rfl
      obtain rfl | rfl | rfl := receive_error fate <;> simp [resultCodes, ErrorKind.code]
    · exact answersByRow_ok [] (by simp)
  | write id cmd p =>
    simp only [effect]
    split_ifs
    · exact answersByRow_code rfl (by simp [resultCodes]) rfl
    · exact answersByRow_ok [] rfl
  | readStatus reg =>
    simp only [effect]
    split
    · exact answersByRow_ok _ rfl
    · exact answersByRow_code rfl (by simp [resultCodes]) rfl

/-- Settles O47: on an instance an operation is its effect, which answers by its row. -/
theorem everyOperationReturnsOneResult : Obligations.EveryOperationReturnsOneResult := by
  intro i s legal
  obtain ⟨code, data, answered, row, length⟩ := effect_answersByRow i s
  exact ⟨effect i s, code, data, exec_eq_next.mpr ⟨legal, rfl⟩, answered, row, length⟩

/-- A pure operation and READ_STATUS only reply, and a reply before it does not change what it replies. -/
theorem effect_pure {i : Instr} (notAppend : ∀ c, i ≠ .append c) (notWrite : ∀ a b c, i ≠ .write a b c)
    (notTake : i ≠ .takeFrame) (notReset : i ≠ .reset) (s : State) :
    ∃ code data, effect i s = reply code data s ∧
      ∀ code' data', effect i (reply code' data' s) = reply code data (reply code' data' s) := by
  cases i with
  | reset => exact absurd rfl notReset
  | takeFrame => exact absurd rfl notTake
  | append c => exact absurd rfl (notAppend c)
  | write a b c => exact absurd rfl (notWrite a b c)
  | checksum | verify | cobsEncode => exact ⟨_, _, rfl, fun _ _ => rfl⟩
  | pack id cmd p =>
    by_cases tooLong : s.cfg.maxPayload < p.length
    · exact ⟨_, _, if_pos tooLong, fun _ _ => if_pos tooLong⟩
    · exact ⟨_, _, if_neg tooLong, fun _ _ => if_neg tooLong⟩
  | cobsDecode | unpack =>
    simp only [effect]
    (repeat' split) <;> exact ⟨_, _, rfl, fun _ _ => rfl⟩
  | readStatus reg =>
    have blind (code : ResultCode) (data : Bytes) : statusValue reg (reply code data s) = statusValue reg s := rfl
    simp only [effect, blind]
    split <;> exact ⟨_, _, rfl, fun _ _ => rfl⟩

/-- Settles O49: on an instance such an operation only replies, and its own reply does not change the next one. -/
theorem pureOperationsChangeNothing : Obligations.PureOperationsChangeNothing := by
  intro i s t notAppend notWrite notTake notReset h
  obtain ⟨legal, rfl⟩ := exec_eq_next.mp h
  obtain ⟨code, data, first, again⟩ := effect_pure notAppend notWrite notTake notReset s
  refine ⟨code, data, first, exec_eq_next.mpr ⟨by rwa [effect_cfg], ?_⟩⟩
  rw [first, again]
  rfl

end Sys2Proof.Machine
end

section
/-! PROOFS. 10_state.md R39: the state that each operation, and so each agent, may change. -/

namespace Sys2Proof.Machine

open Sys2Proof

/-- Only WRITE reaches `tx`. -/
theorem Acts.tx_eq {s t : State} {i : Instr} (h : Acts s i t) (notWrite : ∀ id cmd p, i ≠ .write id cmd p) :
    t.tx = s.tx := by
  cases h with
  | transmit id cmd p => exact absurd rfl (notWrite id cmd p)
  | _ => simp

/-- Only TAKE_FRAME counts a frame's errors, and RESET clears them. -/
theorem Acts.frameCounters_eq {s t : State} {i : Instr} (h : Acts s i t) (notTake : i ≠ .takeFrame)
    (notReset : i ≠ .reset) :
    t.cnt.checksumMismatch = s.cnt.checksumMismatch ∧ t.cnt.frameCorrupt = s.cnt.frameCorrupt ∧
      t.cnt.truncatedMessage = s.cnt.truncatedMessage := by
  cases h with
  | reset => exact absurd rfl notReset
  | drop | dispatch => exact absurd rfl notTake
  | _ => simp [Counters.bump]

/-- Only APPEND counts an overflow, and RESET clears it: an error of a frame is none. -/
theorem Acts.overflowCounter_eq {s t : State} {i : Instr} (h : Acts s i t) (notAppend : ∀ chunk, i ≠ .append chunk)
    (notReset : i ≠ .reset) : t.cnt.bufferOverflow = s.cnt.bufferOverflow := by
  cases h with
  | reset => exact absurd rfl notReset
  | overflow chunk | enqueue chunk => exact absurd rfl (notAppend chunk)
  | drop run rest k _ _ fate => obtain rfl | rfl | rfl := receive_error fate <;> simp [Counters.bump]
  | _ => simp

/-- Only APPEND, TAKE_FRAME and RESET reach the receive path. -/
theorem Acts.receive_eq {s t : State} {i : Instr} (h : Acts s i t) (notAppend : ∀ chunk, i ≠ .append chunk)
    (notTake : i ≠ .takeFrame) (notReset : i ≠ .reset) :
    t.fifo = s.fifo ∧ t.flow = s.flow ∧ t.fcLine = s.fcLine ∧ t.cnt = s.cnt := by
  cases h with
  | reset => exact absurd rfl notReset
  | overflow chunk | enqueue chunk => exact absurd rfl (notAppend chunk)
  | drop | dispatch => exact absurd rfl notTake
  | transmit | answer => exact ⟨rfl, rfl, rfl, rfl⟩

/-- Settles O52: an agent's row leaves out the operations that reach what it must not change. -/
theorem agentFootprints : Obligations.AgentFootprints := by
  rintro s t ⟨agent, bytes⟩ rest i due spells may h
  obtain ⟨_, _, _, rfl⟩ | ⟨u, rest', j, due', spells', -, ran⟩ := acts_of_step h
  · exact ⟨fun _ => ⟨rfl, rfl, rfl, rfl⟩, fun _ => ⟨rfl, rfl⟩, fun _ => ⟨rfl, rfl, rfl, rfl⟩, fun _ => rfl⟩
  · cases due.symm.trans due'
    cases spells.symm.trans spells'
    refine ⟨?_, ?_, ?_, ?_⟩ <;> rintro rfl
    · exact ⟨ran.tx_eq (by rintro _ _ _ rfl; cases may), ran.frameCounters_eq (by rintro rfl; cases may)
        (by rintro rfl; cases may)⟩
    · exact ⟨ran.tx_eq (by rintro _ _ _ rfl; cases may), ran.overflowCounter_eq (by rintro _ rfl; cases may)
        (by rintro rfl; cases may)⟩
    · exact ran.receive_eq (by rintro _ rfl; cases may) (by rintro rfl; cases may) (by rintro rfl; cases may)
    · exact ran.tx_eq (by rintro _ _ _ rfl; cases may)

end Sys2Proof.Machine
end

section
/-! PROOFS. 44_transmit_control.md section 2: RESET is idempotent. -/

namespace Sys2Proof.Machine

open Sys2Proof

/-- Settles O5: RESET's effect on `st` does not depend on `st`, and it emits its one `FlowSet` every time. -/
theorem resetTwiceIsResetOnce : Obligations.ResetTwiceIsResetOnce := by
  intro s t u first second
  obtain ⟨-, rfl⟩ := exec_eq_next.mp first
  obtain ⟨-, rfl⟩ := exec_eq_next.mp second
  exact ⟨rfl, rfl, rfl, rfl, by simp [effect]⟩

end Sys2Proof.Machine
end

section
/-! PROOFS. 60_exceptions.md R293: the fates of frames. -/

namespace Sys2Proof.Machine

open Sys2Proof

/-- TAKE_FRAME without a 0x00 gives no fate. -/
theorem frameFates_of_zero_notMem {s : State} {ev : List Event} (noZero : 0x00#8 ∉ s.fifo)
    (hist : (takeFrame s).hist = s.hist ++ ev) : frameFates ev = [] := by
  rw [takeFrame_of_zero_notMem noZero, reply_hist] at hist
  rw [List.append_cancel_left ((List.append_nil _).trans hist).symm]
  rfl

section
variable {s : State} {run rest : Bytes} (noZero : 0x00#8 ∉ run) (split : s.fifo = run ++ 0x00#8 :: rest)
include noZero split

/-- TAKE_FRAME leaves what stands behind the first 0x00. -/
theorem takeFrame_fifo : (takeFrame s).fifo = rest := by
  cases fate : receive run with
  | error k => simp [takeFrame_of_receive_error noZero split fate]
  | ok m => simp [takeFrame_of_receive_ok noZero split fate]

/-- TAKE_FRAME gives the run it removes its fate, and none to what stays behind. -/
theorem frameFates_of_takeFrame {ev : List Event} (hist : (takeFrame s).hist = s.hist ++ ev) :
    frameFates ev = [receive run] := by
  obtain ⟨ev', hist', queue, -⟩ := takeFrame_queue s
  obtain rfl : ev = ev' := List.append_cancel_left (hist.symm.trans hist')
  refine List.append_cancel_right (queue.symm.trans ?_)
  rw [waitingFates, waitingFates, takeFrame_fifo noZero split, split, completeRuns_append_zero noZero]
  rfl

end

/-- Settles O30: no other operation gives a fate, and TAKE_FRAME gives the removed run's, where there is one. -/
theorem oneFatePerFrame : Obligations.OneFatePerFrame := by
  intro i s t h
  obtain ⟨-, rfl⟩ := exec_eq_next.mp h
  obtain ⟨ev, hist, -, fateless⟩ := (effect_acts i s).sent_and_fates
  refine ⟨ev, hist, fateless, ?_, ?_⟩ <;> rintro rfl
  · exact fun noZero => frameFates_of_zero_notMem noZero hist
  · exact fun run rest noZero split => frameFates_of_takeFrame noZero split hist

end Sys2Proof.Machine
end

section
/-! PROOFS. 70_reset_and_hazards.md R329: runs of a script, a step a line. -/

namespace Sys2Proof.Machine

open Sys2Proof

theorem runSteps_add {m : Nat} {s t : State} (first : runSteps m s = .next t) (n : Nat) :
    runSteps (m + n) s = runSteps n t := by
  induction m generalizing s with
  | zero =>
    cases first
    rw [Nat.zero_add]
  | succ m ih =>
    rw [runSteps] at first
    rw [Nat.succ_add, runSteps]
    cases next : step s with
    | next u =>
      rw [next] at first
      exact ih first
    | fault r | refused r =>
      rw [next] at first
      cases first

/-- No operation writes what is still to come. -/
@[simp] theorem effect_schedule (i : Instr) (s : State) : (effect i s).schedule = s.schedule := by
  have acts := effect_acts i s
  generalize effect i s = t at acts
  cases acts <;> simp

/-- `s` as the operation of a script's line finds it: the lines behind it still to come, and HOST its issuer (log
entry 17). -/
def hostTurn (rest : List Issue) (s : State) : State := { s with schedule := rest, issuer := .host }

@[simp] theorem hostTurn_cfg (rest : List Issue) (s : State) : (hostTurn rest s).cfg = s.cfg := rfl
@[simp] theorem hostTurn_fifo (rest : List Issue) (s : State) : (hostTurn rest s).fifo = s.fifo := rfl
@[simp] theorem hostTurn_hist (rest : List Issue) (s : State) : (hostTurn rest s).hist = s.hist := rfl
@[simp] theorem hostTurn_tx (rest : List Issue) (s : State) : (hostTurn rest s).tx = s.tx := rfl
@[simp] theorem hostTurn_schedule (rest : List Issue) (s : State) : (hostTurn rest s).schedule = rest := rfl
@[simp] theorem hostTurn_issuer (rest : List Issue) (s : State) : (hostTurn rest s).issuer = .host := rfl
@[simp] theorem occ_hostTurn (rest : List Issue) (s : State) : occ (hostTurn rest s) = occ s := rfl

/-- A line of a script runs its operation. -/
theorem step_of_host {s : State} {i : Instr} {rest : List Issue} (legal : s.cfg.Legal) (wf : i.wellFormed = true)
    (due : s.schedule = ⟨.host, encode i⟩ :: rest) : step s = .next (effect i (hostTurn rest s)) := by
  have able : enabled .host i s = true := by cases i <;> rfl
  rw [step_of_decode due (decode_encode wf), if_pos able, exec_eq]
  exact onInstance_of_legal _ legal

end Sys2Proof.Machine
end

section
/-! PROOFS. 20_memory.md section 5, 30_encoding.md R127: DRAIN takes the complete frames of the FIFO one after
another. -/

namespace Sys2Proof.Machine

open Sys2Proof

theorem completeRunsFrom_append (run x y : Bytes) :
    completeRunsFrom run (x ++ y) = completeRunsFrom run x ++ completeRunsFrom (partialFrameFrom run x) y := by
  induction x generalizing run with
  | nil => rfl
  | cons b x ih =>
    simp only [List.cons_append, completeRunsFrom, partialFrameFrom]
    split_ifs
    · rw [ih, List.cons_append]
    · exact ih _

/-- The partial frame holds no 0x00. -/
theorem zero_notMem_partialFrame (x : Bytes) : 0x00#8 ∉ partialFrame x := by
  have kept (run : Bytes) (noZero : 0x00#8 ∉ run) : 0x00#8 ∉ partialFrameFrom run x := by
    induction x generalizing run with
    | nil => exact noZero
    | cons b x ih =>
      rw [partialFrameFrom]
      split_ifs with zero
      · exact ih [] List.not_mem_nil
      · exact ih _ (by simp [noZero, Ne.symm zero])
  exact kept [] List.not_mem_nil

/-- TAKE_FRAME as a line of a script. -/
def hostTakesFrame : Issue := ⟨.host, encode .takeFrame⟩

/-- As many TAKE_FRAMEs as there are 0x00 in the FIFO give every complete frame its fate, in order, and leave the
partial frame; by induction on their number, the first terminator's frame first. -/
theorem runSteps_takeFrames {s : State} {rest : List Issue} (legal : s.cfg.Legal)
    (due : s.schedule = List.replicate (s.fifo.count 0x00#8) hostTakesFrame ++ rest) :
    ∃ t ev, runSteps (s.fifo.count 0x00#8) s = .next t ∧ t.cfg = s.cfg ∧ t.schedule = rest ∧ t.tx = s.tx ∧
      t.fifo = partialFrame s.fifo ∧ t.hist = s.hist ++ ev ∧ frameFates ev = (completeRuns s.fifo).map receive := by
  induction hn : s.fifo.count 0x00#8 generalizing s with
  | zero =>
    have noZero : 0x00#8 ∉ s.fifo := List.count_eq_zero.mp hn
    rw [hn] at due
    exact ⟨s, [], rfl, rfl, due, rfl, (partialFrame_of_zero_notMem noZero).symm, (List.append_nil _).symm,
      by rw [completeRuns, completeRunsFrom_of_no_zero noZero]; rfl⟩
  | succ n ih =>
    have waits : 0x00#8 ∈ s.fifo := List.count_pos_iff.mp (by omega)
    obtain ⟨run, behind, split, noZero⟩ := List.eq_append_cons_of_mem waits
    have fewer : behind.count 0x00#8 = n := by
      rw [split, List.count_append, List.count_eq_zero.mpr noZero, List.count_cons_self] at hn
      omega
    rw [hn, List.replicate_succ, List.cons_append] at due
    have first := step_of_host legal rfl due
    generalize hv : hostTurn (List.replicate n hostTakesFrame ++ rest) s = v at first
    have split' : v.fifo = run ++ 0x00#8 :: behind := by rw [← hv, hostTurn_fifo, split]
    have acts := effect_acts .takeFrame v
    have fifo : (effect .takeFrame v).fifo = behind := takeFrame_fifo noZero split'
    obtain ⟨ev, hist, -⟩ := acts.sent_and_fates
    have fate := frameFates_of_takeFrame noZero split' hist
    obtain ⟨t, ev', others, cfg, schedule, tx, fifo', hist', fates⟩ := ih (s := effect .takeFrame v)
      (by rwa [effect_cfg, ← hv]) (by rw [effect_schedule, fifo, fewer, ← hv]; rfl) (by rw [fifo, fewer])
    refine ⟨t, ev ++ ev', (runSteps_of_step first n).trans others, ?_, schedule, ?_, ?_, ?_, ?_⟩
    · rw [cfg, effect_cfg, ← hv, hostTurn_cfg]
    · rw [tx, acts.tx_eq nofun, ← hv, hostTurn_tx]
    · rw [fifo', fifo, split, partialFrame_append_zero]
    · rw [hist', hist, ← hv, hostTurn_hist, List.append_assoc]
    · rw [frameFates_append, fate, fates, fifo, split, completeRuns_append_zero noZero]
      rfl

/-- Settles O58: the DRAIN script has one TAKE_FRAME more than there are complete frames, and it finds only the partial
frame. -/
theorem drainTakesFramesInOrder : Obligations.DrainTakesFramesInOrder := by
  intro s legal
  have due : (withScript (drainScript s) s).schedule =
      List.replicate (s.fifo.count 0x00#8) hostTakesFrame ++ [hostTakesFrame] := by
    rw [← List.replicate_succ']
    exact List.map_replicate
  obtain ⟨t, ev, frames, cfg, schedule, -, fifo, hist, fates⟩ :=
    runSteps_takeFrames (s := withScript (drainScript s) s) legal due
  have noZero : 0x00#8 ∉ t.fifo := fifo ▸ zero_notMem_partialFrame s.fifo
  have last : step t = .next (reply .noTerminator [] (hostTurn [] t)) := by
    rw [step_of_host (cfg ▸ legal) rfl schedule, effect, takeFrame_of_zero_notMem (s := hostTurn [] t) noZero]
  refine ⟨reply .noTerminator [] (hostTurn [] t), ev, ?_, hist, fates, fifo, noZero, ?_⟩
  · rw [runScript, drainScript, List.length_replicate, ← drainScript]
    exact (runSteps_add frames 1).trans (runSteps_of_step last 0)
  · simp

end Sys2Proof.Machine
end

section
/-! PROOFS. 44_transmit_control.md section 1, 30_encoding.md R127: LOOPBACK. -/

namespace Sys2Proof.Machine

open Sys2Proof

/-- A payload that fits is transmitted (44_transmit_control.md R251). -/
theorem effect_write_of_fits {p : Bytes} {s : State} (fits : p.length ≤ s.cfg.maxPayload) (id : MsgId) (cmd : MsgCmd) :
    effect (.write id cmd p) s = reply .ok [] (transmit (wireFrame id cmd p) s) := if_neg (Nat.not_lt.mpr fits)

/-- A chunk that fits joins the tail (43_intake_flow.md R215). -/
theorem effect_append_of_fits {chunk : Bytes} {s : State} (nonempty : chunk ≠ [])
    (fits : occ s + chunk.length ≤ s.cfg.capacity) :
    effect (.append chunk) s = reply .ok [] (flowEval (setFifo (s.fifo ++ chunk) s)) := by
  rw [effect, appendChunk, if_neg nonempty, if_neg (Nat.not_lt.mpr fits)]

/-- The run of a wire frame is received as the message it carries. -/
theorem receive_wireRun (id : MsgId) (cmd : MsgCmd) {p : Bytes} (fits : p.length ≤ 255) :
    receive (cobsGroups (pack id cmd p)) = .ok ⟨id, cmd, BitVec.ofNat 8 p.length, p⟩ := by
  rw [receive, cobsDecodeRun_cobsGroups]
  exact unpack_pack id cmd fits

/-- Nothing is left of a frame where the bytes are none or end in a 0x00. -/
theorem partialFrame_eq_nil {x : Bytes} (h : x = [] ∨ x.getLast? = some 0x00#8) : partialFrame x = [] := by
  obtain rfl | ends := h
  · rfl
  · obtain ⟨init, rfl⟩ := List.getLast?_eq_some_iff.mp ends
    exact partialFrame_append_zero init []

/-- A wire frame behind complete frames is one more of them, and leaves no partial frame. -/
theorem append_wireFrame {x : Bytes} (whole : partialFrame x = []) (id : MsgId) (cmd : MsgCmd) (p : Bytes) :
    completeRuns (x ++ wireFrame id cmd p) = completeRuns x ++ [cobsGroups (pack id cmd p)] ∧
    partialFrame (x ++ wireFrame id cmd p) = [] ∧
    (x ++ wireFrame id cmd p).count 0x00#8 = x.count 0x00#8 + 1 := by
  have noZero := zero_notMem_cobsGroups (pack id cmd p)
  have tail : completeRuns (cobsGroups (pack id cmd p) ++ [0x00#8]) = [cobsGroups (pack id cmd p)] :=
    completeRuns_append_zero noZero []
  refine ⟨?_, ?_, ?_⟩
  · rw [completeRuns, completeRunsFrom_append, show partialFrameFrom [] x = [] from whole]
    exact congrArg (completeRuns x ++ ·) tail
  · rw [wireFrame, cobsFrame, ← List.append_assoc]
    exact partialFrame_append_zero _ []
  · rw [wireFrame, cobsFrame, List.count_append, List.count_append, List.count_eq_zero.mpr noZero]
    rfl

/-- A script's lines as HOST issues them (log entry 17). -/
def hostLines (script : List Instr) : List Issue := script.map fun i => ⟨.host, encode i⟩

/-- The two lines of LOOPBACK put the frame on `tx` and behind the bytes of the FIFO, and give no frame a fate. -/
theorem runSteps_loopback {id : MsgId} {cmd : MsgCmd} {p : Bytes} {s : State} {rest : List Issue} (legal : s.cfg.Legal)
    (fits : p.length ≤ s.cfg.maxPayload) (room : s.fifo.length + (wireFrame id cmd p).length ≤ s.cfg.capacity)
    (due : s.schedule = hostLines (loopbackScript id cmd p) ++ rest) :
    ∃ t ev, runSteps 2 s = .next t ∧ t.cfg = s.cfg ∧ t.schedule = rest ∧ t.tx = s.tx ++ wireFrame id cmd p ∧
      t.fifo = s.fifo ++ wireFrame id cmd p ∧ t.hist = s.hist ++ ev ∧ frameFates ev = [] := by
  have ⟨_, _, _, _, payload⟩ := legal
  have fits255 : p.length ≤ 255 := fits.trans payload
  obtain ⟨-, -, short, -⟩ := wireFrameLength id cmd p fits255
  have nonempty : wireFrame id cmd p ≠ [] := List.append_ne_nil_of_right_ne_nil _ (List.cons_ne_nil _ _)
  have first := step_of_host (i := .write id cmd p) legal (decide_eq_true fits255) due
  rw [effect_write_of_fits (s := hostTurn _ s) fits] at first
  generalize hu : reply .ok [] (transmit (wireFrame id cmd p) (hostTurn _ s)) = u at first
  have cfg : u.cfg = s.cfg := by rw [← hu]; simp
  have second := step_of_host (s := u) (i := .append (wireFrame id cmd p)) (rest := rest) (cfg ▸ legal)
    (decide_eq_true (by omega)) (by rw [← hu]; rfl)
  rw [effect_append_of_fits nonempty (by rw [← hu]; exact room)] at second
  obtain ⟨ev, hist, quiet, -⟩ := flowEval_hist (setFifo (u.fifo ++ wireFrame id cmd p) (hostTurn rest u))
  refine ⟨_, .txFrame (wireFrame id cmd p) :: ev, (runSteps_of_step first 1).trans (runSteps_of_step second 0),
    ?_, ?_, ?_, ?_, ?_, quiet⟩
  · simpa using cfg
  · simp
  · simp [← hu]
  · simp [← hu]
  · simp only [hostTurn_fifo, reply_hist, hist]
    simp [← hu]

/-- Settles O59: WRITE puts the frame on `tx`, APPEND makes it the last complete frame, and the TAKE_FRAMEs take all
there are. -/
theorem loopbackDeliversMessage : Obligations.LoopbackDeliversMessage := by
  intro id cmd p s legal fits whole room
  have ⟨_, _, _, _, payload⟩ := legal
  obtain ⟨runs, none, count⟩ := append_wireFrame (partialFrame_eq_nil whole) id cmd p
  have due : (withScript (loopbackScript id cmd p ++ List.replicate (s.fifo.count 0x00#8 + 1) .takeFrame) s).schedule =
      hostLines (loopbackScript id cmd p) ++ List.replicate (s.fifo.count 0x00#8 + 1) hostTakesFrame := by
    simp [withScript, hostLines, hostTakesFrame]
  obtain ⟨u, ev, lines, cfg, schedule, tx, fifo, hist, quiet⟩ :=
    runSteps_loopback (s := withScript _ s) legal fits room due
  have fifo : u.fifo = s.fifo ++ wireFrame id cmd p := fifo
  have counted : u.fifo.count 0x00#8 = s.fifo.count 0x00#8 + 1 := by rw [fifo, count]
  obtain ⟨t, ev', frames, -, -, tx', fifo', hist', fates⟩ :=
    runSteps_takeFrames (s := u) (rest := []) (cfg ▸ legal) (by rw [schedule, counted, List.append_nil])
  refine ⟨t, ev ++ ev', ?_, ?_, ?_, ?_, ?_⟩
  · rw [runScript, List.length_append, List.length_replicate]
    exact (runSteps_add lines _).trans (counted ▸ frames)
  · exact hist'.trans (by rw [hist, List.append_assoc]; rfl)
  · rw [fifo', fifo, none]
  · exact tx'.trans tx
  · rw [frameFates_append, quiet, fates, fifo, runs, List.map_append, List.map_singleton,
      receive_wireRun id cmd (fits.trans payload), List.nil_append]

end Sys2Proof.Machine
end

section
/-! PROOFS. 70_reset_and_hazards.md section 5: the waiting frames are taken, whatever the schedule. -/

namespace Sys2Proof.Machine

open Sys2Proof

/-- An APPEND that does not fit leaves its event (43_intake_flow.md R216). -/
theorem fits_of_no_overflow {chunk : Bytes} {s : State} {ev : List Event} (nonempty : chunk ≠ [])
    (hist : (effect (.append chunk) s).hist = s.hist ++ ev) (none : errorCount .bufferOverflow ev = 0) :
    occ s + chunk.length ≤ s.cfg.capacity := by
  by_contra full
  obtain ⟨ev', evaluated, -⟩ := flowEval_hist (count .bufferOverflow (setFifo [] s))
  have counted : ev = .error .bufferOverflow :: ev' := by
    rw [effect, appendChunk, if_neg nonempty, if_pos (Nat.not_le.mp full), reply_hist, evaluated] at hist
    simpa using hist.symm
  rw [counted, errorCount_error_cons, if_pos rfl] at none
  omega

/-- A step that is no RESET and does not overflow keeps the queue: the frames that waited have their fates among the new
events or still wait, in the same order, and a TAKE_FRAME of PROC gives one its fate. -/
theorem step_queue {s t : State} {u : Issue} {rest : List Issue} (due : s.schedule = u :: rest)
    (notReset : decode u.bytes ≠ .ok .reset) (h : step s = .next t) :
    t.schedule = rest ∧ ∃ ev, t.hist = s.hist ++ ev ∧ (errorCount .bufferOverflow ev = 0 →
      waitingFates s <+: frameFates ev ++ waitingFates t ∧
        (u = procTakesFrame → waitingFates s ≠ [] → frameFates ev ≠ [])) := by
  obtain ⟨-, stop⟩ | ⟨-, idle, -⟩ | ⟨-, u', rest', due', issued⟩ := step_cases s
  · cases stop.symm.trans h
  · cases idle.symm.trans due
  cases due.symm.trans due'
  obtain ⟨r, rejected, e⟩ | ⟨i, spells, unable, e⟩ | ⟨i, spells, -, e⟩ := issued <;> cases e.symm.trans h
  · obtain ⟨ev, hist, queue⟩ := queue_of_frame (s := s)
      (t := refuse (rejectCode r) { s with schedule := rest, issuer := u.agent }) rfl rfl
    refine ⟨rfl, ev, hist, fun _ => ⟨queue, ?_⟩⟩
    rintro rfl
    cases rejected
  · obtain ⟨ev, hist, queue⟩ := queue_of_frame (s := s) (t := { s with schedule := rest }) rfl rfl
    refine ⟨rfl, ev, hist, fun _ => ⟨queue, ?_⟩⟩
    rintro rfl waits
    cases spells
    have able := enabled_of_waiting (s := s) fun none => waits (by rw [waitingFates, none, List.map_nil])
    cases able.symm.trans unable
  · refine ⟨effect_schedule _ _, ?_⟩
    by_cases take : u = procTakesFrame
    · subst take
      cases spells
      obtain ⟨ev, hist, queue, fate⟩ := takeFrame_queue { s with schedule := rest, issuer := procTakesFrame.agent }
      refine ⟨ev, hist, fun _ => ⟨⟨[], (List.append_nil _).trans queue⟩, fun _ waits => fate fun none => waits ?_⟩⟩
      exact congrArg (List.map receive) none
    · obtain ⟨ev, hist, -⟩ := (effect_acts i { s with schedule := rest, issuer := u.agent }).sent_and_fates
      refine ⟨ev, hist, fun none => ⟨?_, (absurd · take)⟩⟩
      obtain ⟨ev', hist', queue⟩ := effect_queue i { s with schedule := rest, issuer := u.agent }
        (fun isReset => notReset (isReset ▸ spells))
        (fun chunk isAppend nonempty => fits_of_no_overflow nonempty (isAppend ▸ hist) none)
      obtain rfl : ev = ev' := List.append_cancel_left (hist.symm.trans hist')
      exact queue

/-- Where a queue `waiting` gives `fates` or stays in `still`, and `n` of what stays come next, `n` and as many as were
given of the queue have come. -/
theorem take_prefix_append {α : Type} {waiting fates still next : List α} {m n : Nat}
    (queue : waiting <+: fates ++ still) (others : still.take n <+: next) (bound : m ≤ fates.length + n) :
    waiting.take m <+: fates ++ next := by
  have first : waiting.take m <+: (fates ++ still).take (fates.length + n) :=
    (queue.take m).trans (List.take_prefix_take_left bound)
  rw [List.take_length_add_append] at first
  exact first.trans ((List.prefix_append_right_inj _).mpr others)

/-- Settles O60: by induction over the schedule, since each step keeps the queue and each TAKE_FRAME of PROC shortens
it. -/
theorem waitingFramesAreTaken : Obligations.WaitingFramesAreTaken := by
  intro s legal notReset
  induction hn : s.schedule generalizing s with
  | nil => exact ⟨s, [], rfl, hn, (List.append_nil _).symm, fun _ => List.nil_prefix⟩
  | cons u rest ih =>
    obtain ⟨v, first⟩ := exists_step_eq_next legal
    obtain ⟨schedule, ev, hist, queue⟩ := step_queue hn (notReset u (hn ▸ List.mem_cons_self)) first
    obtain ⟨t, ev', others, empty, hist', taken⟩ := ih v (step_cfg first ▸ legal)
      (fun w due => notReset w (hn ▸ List.mem_cons_of_mem u (schedule ▸ due))) schedule
    refine ⟨t, ev ++ ev', (runSteps_of_step first rest.length).trans others, empty, ?_, fun none => ?_⟩
    · rw [hist', hist, List.append_assoc]
    · obtain ⟨noneFirst, noneOthers⟩ := Nat.add_eq_zero_iff.mp ((errorCount_append _ _ _).symm.trans none)
      obtain ⟨order, fate⟩ := queue noneFirst
      have behind := taken noneOthers
      rw [List.map_take] at behind ⊢
      rw [frameFates_append]
      by_cases waits : waitingFates s = []
      · rw [show (completeRuns s.fifo).map receive = [] from waits, List.take_nil]
        exact List.nil_prefix
      · refine take_prefix_append order behind ?_
        rw [List.count_cons]
        split_ifs with take
        · have given := List.length_pos_iff.mpr (fate (beq_iff_eq.mp take) waits)
          omega
        · omega

end Sys2Proof.Machine
end
